-- ==== Sys2Proof/Word.lean ====
section
/-! DEFINITION. The two bit-vector widths of the block: bytes of the buffers and 32-bit registers (spec/10_state.md R17). -/

namespace Sys2Proof

/-- One byte of a buffer, or one character of an alphabet. -/
abbrev Byte := BitVec 8

/-- A 32-bit register, command word or item of bus data. -/
abbrev Word := BitVec 32

end Sys2Proof
end

