-- ==== Sys2Proof/Syntax.lean ====
section
/-! DEFINITION. The ten commands of spec/opcode_table.json (spec/30_encoding.md R58 to R64), and the lines of a
host script (spec/30_encoding.md R70), which is the only program the block knows. -/

namespace Sys2Proof

/-- The FILL field (spec/30_encoding.md R61): a length query, or a fill that writes OUT_BUF. -/
inductive Mode where
  /-- FILL = 0, written `.Q`. -/
  | query
  /-- FILL = 1, written `.F`. -/
  | fill
  deriving DecidableEq, Repr

/-- One constructor per row of the opcode map (spec/30_encoding.md R63). FILL is a field of each row, not
part of its opcode, so it is each constructor's one argument. Log 21. -/
inductive Instr where
  /-- P58.ENC: base-58 encode (R89). -/
  | p58Enc (mode : Mode)
  /-- P58.DEC: base-58 decode (R90). -/
  | p58Dec (mode : Mode)
  /-- P6.ENC: base-6 encode (R91). -/
  | p6Enc (mode : Mode)
  /-- P6.DEC: base-6 decode (R92). -/
  | p6Dec (mode : Mode)
  /-- B64.ENC: base-64 encode (R101). -/
  | b64Enc (mode : Mode)
  /-- B64.DEC: base-64 decode (R102). -/
  | b64Dec (mode : Mode)
  /-- PACK8_32: bytes to 32-bit lanes (R111). -/
  | pack8To32 (mode : Mode)
  /-- UNPACK32_8: 32-bit lanes to bytes (R112). -/
  | unpack32To8 (mode : Mode)
  /-- PACK16_32: 16-bit lanes to 32-bit lanes (R113). -/
  | pack16To32 (mode : Mode)
  /-- UNPACK32_16: 32-bit lanes to 16-bit lanes (R114). -/
  | unpack32To16 (mode : Mode)
  deriving DecidableEq, Repr

/-- The FILL field of a command. -/
def Instr.mode : Instr → Mode
  | .p58Enc m | .p58Dec m | .p6Enc m | .p6Dec m | .b64Enc m | .b64Dec m
  | .pack8To32 m | .unpack32To8 m | .pack16To32 m | .unpack32To16 m => m

/-- The UNIT column of spec/30_encoding.md R63. -/
def Instr.unit : Instr → Nat
  | .p58Enc _ | .p58Dec _ => 1
  | .p6Enc _ | .p6Dec _ => 2
  | .b64Enc _ | .b64Dec _ => 3
  | .pack8To32 _ | .unpack32To8 _ => 4
  | .pack16To32 _ | .unpack32To16 _ => 5

/-- The DIR column of spec/30_encoding.md R63: true is DIR = 1, decode or unpack (R59). -/
def Instr.dir : Instr → Bool
  | .p58Enc _ | .p6Enc _ | .b64Enc _ | .pack8To32 _ | .pack16To32 _ => false
  | .p58Dec _ | .p6Dec _ | .b64Dec _ | .unpack32To8 _ | .unpack32To16 _ => true

/-- `e_in`: bytes in one input element (spec/30_encoding.md R63 and R64). -/
def Instr.eIn : Instr → Nat
  | .p58Enc _ | .p58Dec _ | .p6Enc _ | .p6Dec _ | .b64Enc _ | .b64Dec _ | .pack8To32 _ => 1
  | .pack16To32 _ => 2
  | .unpack32To8 _ | .unpack32To16 _ => 4

/-- `e_out`: bytes in one output element (spec/30_encoding.md R63 and R64). -/
def Instr.eOut : Instr → Nat
  | .p58Enc _ | .p58Dec _ | .p6Enc _ | .p6Dec _ | .b64Enc _ | .b64Dec _ | .unpack32To8 _ => 1
  | .unpack32To16 _ => 2
  | .pack8To32 _ | .pack16To32 _ => 4

/-- Does the command use the positional codec, and so the accumulator (spec/10_state.md R34)? -/
def Instr.positional : Instr → Bool
  | .p58Enc _ | .p58Dec _ | .p6Enc _ | .p6Dec _ => true
  | .b64Enc _ | .b64Dec _ | .pack8To32 _ | .unpack32To8 _ | .pack16To32 _ | .unpack32To16 _ => false

/-- The three widths of a host access (spec/20_memory.md R42 and R43). -/
inductive Width where
  | w8
  | w16
  | w32
  deriving DecidableEq, Repr

/-- The width in bytes. -/
def Width.bytes : Width → Nat
  | .w8 => 1
  | .w16 => 2
  | .w32 => 4

/-- What a host write line sends: a constant or the temporary `t` (spec/30_encoding.md R70). -/
inductive HostData where
  | imm (v : Word)
  | temp
  deriving DecidableEq, Repr

/-- A line of a host script (spec/30_encoding.md R70). Offsets count from BASE; a label is a number here. Log 9. -/
inductive HostLine where
  /-- `W8 off, d`, `W16 off, d`, `W32 off, d`. -/
  | write (width : Width) (off : Nat) (data : HostData)
  /-- `R8 off`, `R16 off`, `R32 off`: into the host temporary `t`. -/
  | read (width : Width) (off : Nat)
  /-- `BIT k, label`: continue at the label if bit k of `t` is 1. -/
  | bit (k : Fin 32) (target : Nat)
  /-- `BNZ label`: continue at the label if `t` is not 0. -/
  | bnz (target : Nat)
  /-- `JMP label`. -/
  | jmp (target : Nat)
  /-- `label:` names the line after it. -/
  | label (name : Nat)
  /-- `HALT`: end of script. -/
  | halt
  deriving DecidableEq, Repr

/-- A bus transaction of spec/30_encoding.md R70: (kind, address, width, data); a read has no data. -/
structure BusTransaction where
  address : Nat
  width   : Width
  data    : Option Word
  deriving DecidableEq, Repr

end Sys2Proof
end

