-- ==== Sys2Proof/Decode.lean ====
section
/-! DEFINITION. Command words (spec/30_encoding.md R58 to R68): the decoder, the encoder, and the text forms of
R69. -/

namespace Sys2Proof

/-- Why a word encodes no command (spec/30_encoding.md R66); `truncated` is for fewer than four bytes. -/
inductive DecodeError where
  /-- A reserved bit of R58 is set. -/
  | reservedBits
  /-- UNIT is 0, 6 or 7. -/
  | reservedUnit
  /-- A command is one whole 32-bit word (R68). -/
  | truncated
  deriving DecidableEq, Repr

/-- Exactly the reserved fields of spec/30_encoding.md R58: bits 31:9, 7 and 3:1 (R65). -/
def reservedMask : Word := 0xFFFFFE8E#32

/-- The row of spec/30_encoding.md R63 with this UNIT and DIR, in the given mode. -/
def commandOf (unit : Nat) (dir : Bool) (m : Mode) : Option Instr :=
  match unit, dir with
  | 1, false => some (.p58Enc m)
  | 1, true => some (.p58Dec m)
  | 2, false => some (.p6Enc m)
  | 2, true => some (.p6Dec m)
  | 3, false => some (.b64Enc m)
  | 3, true => some (.b64Dec m)
  | 4, false => some (.pack8To32 m)
  | 4, true => some (.unpack32To8 m)
  | 5, false => some (.pack16To32 m)
  | 5, true => some (.unpack32To16 m)
  | _, _ => none

/-- fill(v) of spec/30_encoding.md R65. -/
def fillField (v : Word) : Mode := if v.getLsbD 8 then .fill else .query

/-- Decoding a command word (spec/30_encoding.md R65), total on all words. -/
def decode (v : Word) : Except DecodeError Instr :=
  if v &&& reservedMask = 0#32 then
    match commandOf (v.extractLsb' 4 3).toNat (v.getLsbD 0) (fillField v) with
    | some i => .ok i
    | none => .error .reservedUnit
  else .error .reservedBits

/-- legal(v) of spec/30_encoding.md R65, as the decoder has it. -/
def legal (v : Word) : Bool :=
  match decode v with
  | .ok _ => true
  | .error _ => false

/-- A 32-bit value from its bytes, least significant first (spec/20_memory.md R45). -/
def wordOfBytes (b0 b1 b2 b3 : Byte) : Word := b3 ++ b2 ++ b1 ++ b0

/-- The first command of a byte string, with the bytes after it. -/
def decodeBytes : List Byte → Except DecodeError (Instr × List Byte)
  | b0 :: b1 :: b2 :: b3 :: rest =>
    match decode (wordOfBytes b0 b1 b2 b3) with
    | .ok i => .ok (i, rest)
    | .error e => .error e
  | _ => .error .truncated

/-- The command word of the opcode map (spec/30_encoding.md R58 and R63), field by field. -/
def encode (i : Instr) : Word :=
  BitVec.ofNat 32 (i.unit * 2 ^ 4 + (if i.dir then 1 else 0) + (if i.mode = .fill then 2 ^ 8 else 0))

/-- Byte k of a number, counted from the least significant. -/
def byteAt (v k : Nat) : Byte := BitVec.ofNat 8 (v / 256 ^ k)

/-- The bytes of a command word as the bus carries them, lowest address first (spec/20_memory.md R45). -/
def commandBytes (w : Nat) : List Byte := [byteAt w 0, byteAt w 1, byteAt w 2, byteAt w 3]

/-- The host's question: what the decoder reads from an instruction whose low `nbits` bits are those of
`w` and whose other bits are 0. Every command is one 32-bit word (spec/30_encoding.md R68). Log 17. -/
def decodeTableWord (nbits w : Nat) : Option Instr :=
  match decodeBytes (commandBytes (w % 2 ^ nbits)) with
  | .ok (i, _) => some i
  | .error _ => none

/-- The mnemonic of spec/30_encoding.md R63. -/
def Instr.mnemonic : Instr → String
  | .p58Enc _ => "P58.ENC"
  | .p58Dec _ => "P58.DEC"
  | .p6Enc _ => "P6.ENC"
  | .p6Dec _ => "P6.DEC"
  | .b64Enc _ => "B64.ENC"
  | .b64Dec _ => "B64.DEC"
  | .pack8To32 _ => "PACK8_32"
  | .unpack32To8 _ => "UNPACK32_8"
  | .pack16To32 _ => "PACK16_32"
  | .unpack32To16 _ => "UNPACK32_16"

/-- One hexadecimal digit. DESIGN CHOICE: capitals (log 18). -/
def hexDigit (n : Nat) : Char :=
  ['0', '1', '2', '3', '4', '5', '6', '7', '8', '9', 'A', 'B', 'C', 'D', 'E', 'F'].getD n '0'

/-- The eight hexadecimal digits of a word, most significant first. -/
def hexDigits (v : Word) : List Char :=
  [7, 6, 5, 4, 3, 2, 1, 0].map fun k => hexDigit (v.toNat / 16 ^ k % 16)

/-- Disassembly (spec/30_encoding.md R69): `<mnemonic>.<Q|F>`, or `.illegal 0x` and eight digits. -/
def disassemble (v : Word) : String :=
  match decode v with
  | .ok i => i.mnemonic ++ (match i.mode with | .query => ".Q" | .fill => ".F")
  | .error _ => ".illegal 0x" ++ String.ofList (hexDigits v)

end Sys2Proof
end

