-- ==== Sys2Proof/Config.lean ====
section
/-! DEFINITION. What one instance of the block fixes for its whole life (spec/00_scope.md R5), and the values
the spec leaves open. -/

namespace Sys2Proof

/-- The parameters of spec/00_scope.md R5 that the block itself uses. No register changes one of them.
The constraints between them are `Config.Wf` (WellFormed.lean), their defaults `Machine.defaultConfig`
(Machine/Defaults.lean). Log 1. -/
structure Config where
  /-- `IN_SIZE`: bytes in IN_BUF. -/
  inSize : Nat
  /-- `OUT_SIZE`: bytes in OUT_BUF. -/
  outSize : Nat
  /-- `ACC_BITS`: width of the accumulator. -/
  accBits : Nat
  /-- `ID_VALUE`: what the ID register reads. -/
  idValue : Word
  /-- `ALPHA58`: the character of each base-58 digit. -/
  alpha58 : Vector Byte 58
  /-- `ALPHA6`: the character of each base-6 digit. -/
  alpha6 : Vector Byte 6
  /-- `ALPHA64`: the base-64 table. -/
  alpha64 : Vector Byte 64
  /-- `PAD64`: the base-64 padding byte. -/
  pad64 : Byte
  deriving DecidableEq, Repr

/-- FREE VALUE. What the k-th read of OUT_BUF issued while BUSY = 1 puts on the bus
(spec/20_memory.md R48: any value, two reads may differ). Log 4. -/
opaque Config.freeRead : Nat → Word

/-- FREE VALUE. How many host steps come between the k-th start of a command and its COMPLETE
(spec/40_command.md R83: a finite number the block does not bound). Log 3. -/
opaque Config.freeDelay : Nat → Nat

/-- FREE VALUE. What the accumulator is left holding after the k-th positional command
(spec/10_state.md R34 and R39: unspecified, never read). Log 5. -/
opaque Config.freeAcc : Nat → Nat

/-- FREE VALUE. Which 0x40000-byte block of the bus the platform puts the aperture at. Log 15. -/
opaque Config.baseIndex : Nat

/-- `BASE` (spec/00_scope.md R5, OPEN): the bus address of offset 0, aligned to 0x40000. -/
def Config.base : Nat := 0x40000 * Config.baseIndex

end Sys2Proof
end

