-- ==== Sys2Proof/Machine/Defaults.lean ====
section
/-! DEFINITION. The default parameters of spec/00_scope.md R5, as bytes. The alphabets of base 58 and base 64 and the
padding byte are the spec's general-knowledge defaults (spec/93_implementation_defined.md G1 to G4). Log 14. -/

namespace Sys2Proof.Machine

/-- `123456789ABC…xyz` in ASCII: the digits without 0, the capitals without I and O, the small letters without l. -/
def alpha58Bytes : List Byte :=
  [0x31, 0x32, 0x33, 0x34, 0x35, 0x36, 0x37, 0x38, 0x39, 0x41, 0x42, 0x43]
  ++ [0x44, 0x45, 0x46, 0x47, 0x48, 0x4A, 0x4B, 0x4C, 0x4D, 0x4E, 0x50, 0x51]
  ++ [0x52, 0x53, 0x54, 0x55, 0x56, 0x57, 0x58, 0x59, 0x5A, 0x61, 0x62, 0x63]
  ++ [0x64, 0x65, 0x66, 0x67, 0x68, 0x69, 0x6A, 0x6B, 0x6D, 0x6E, 0x6F, 0x70]
  ++ [0x71, 0x72, 0x73, 0x74, 0x75, 0x76, 0x77, 0x78, 0x79, 0x7A]

/-- `012345` in ASCII. -/
def alpha6Bytes : List Byte :=
  [0x30, 0x31, 0x32, 0x33, 0x34, 0x35]

/-- `A` to `Z`, `a` to `z`, `0` to `9`, `+`, `/` in ASCII. -/
def alpha64Bytes : List Byte :=
  [0x41, 0x42, 0x43, 0x44, 0x45, 0x46, 0x47, 0x48, 0x49, 0x4A, 0x4B, 0x4C, 0x4D]
  ++ [0x4E, 0x4F, 0x50, 0x51, 0x52, 0x53, 0x54, 0x55, 0x56, 0x57, 0x58, 0x59, 0x5A]
  ++ [0x61, 0x62, 0x63, 0x64, 0x65, 0x66, 0x67, 0x68, 0x69, 0x6A, 0x6B, 0x6C, 0x6D]
  ++ [0x6E, 0x6F, 0x70, 0x71, 0x72, 0x73, 0x74, 0x75, 0x76, 0x77, 0x78, 0x79, 0x7A]
  ++ [0x30, 0x31, 0x32, 0x33, 0x34, 0x35, 0x36, 0x37, 0x38, 0x39, 0x2B, 0x2F]

/-- The instance spec/00_scope.md R5 assumes when no parameter is given. -/
def defaultConfig : Config where
  inSize := 4096
  outSize := 16384
  accBits := 8 * 4096
  idValue := 0x42544B01#32
  alpha58 := ⟨alpha58Bytes.toArray, rfl⟩
  alpha6 := ⟨alpha6Bytes.toArray, rfl⟩
  alpha64 := ⟨alpha64Bytes.toArray, rfl⟩
  pad64 := 0x3D#8

end Sys2Proof.Machine
end

