-- ==== Sys2Proof/Machine/State.lean ====
section
/-! DEFINITION. Everything the spec gives the machine (spec/10_state.md R16), as plain data; why a step can stop;
the state after reset (R39). -/

namespace Sys2Proof.Machine

/-- The status codes of spec/60_exceptions.md R150. Log 22. -/
inductive StatusCode where
  /-- 0. -/
  | ok
  /-- 1: a decode input byte is outside the alphabet. -/
  | invalidSymbol
  /-- 2: reserved for the checksum codec, never produced (R154). -/
  | checksumMismatch
  /-- 3: reserved, never produced (R155). -/
  | allocationFailure
  /-- 4: a fill's output does not fit. -/
  | outputTooSmall
  /-- 5: input out of range, or a base-64 length not a multiple of 4. -/
  | invalidLength
  /-- 6: a command word that is not legal. -/
  | illegalCommand
  deriving DecidableEq, Repr

/-- The written bytes of a buffer as (offset, byte) pairs, offsets strictly rising. An offset with no pair
is a byte no write has set since reset: the written-marks of spec/10_state.md R32 are the pairs' presence. Log 7. -/
abbrev Memory := List Host.Cell

/-- Why the machine stops. -/
inductive Fault where
  /-- UNINIT_READ (spec/10_state.md R32, spec/60_exceptions.md R159). Raised by a host read of an unwritten
  buffer byte and by a command whose input holds one. Safe: the hardware goes on with a value the spec does not give. -/
  | uninitRead
  /-- Raised by a host script line whose offset is outside the aperture (spec/20_memory.md R40, R41): the
  block fixes nothing there. Safe: some other device of the platform would answer. Log 10. -/
  | outsideAperture
  deriving DecidableEq, Repr

/-- Why the machine has no meaning for what it is asked to run. -/
inductive Refusal where
  /-- Raised by `exec`'s arm of an instruction that has no meaning yet. Safe. -/
  | notModelled (mnemonic : String)
  /-- Raised by a step with BUSY = 1 and no legal word in the latch (spec/93_implementation_defined.md U7), which
  no state satisfying `BlockInv` has. Safe. Log 11. -/
  | illegalLatch
  /-- Raised by a host script line that jumps to a label the script does not define. Safe: the spec gives
  such a script no meaning. Log 9. -/
  | noSuchLabel (target : Nat)
  deriving DecidableEq, Repr

/-- The machine. Each field names the rule that gives it. -/
structure State where
  /-- The instance's parameters (spec/00_scope.md R5): constant. ID, IN_SIZE_R and OUT_SIZE_R read from it. Log 1. -/
  cfg : Config
  /-- CTRL.IE (spec/10_state.md R20). -/
  ie : Bool
  /-- STATUS.BUSY (R21). -/
  busy : Bool
  /-- STATUS.DONE (R21). -/
  done : Bool
  /-- STATUS.OVR (R21). -/
  ovr : Bool
  /-- STATUS.CODE (R21). -/
  code : StatusCode
  /-- CMD (R23): the last word a write was accepted with, reserved bits included. -/
  cmd : Word
  /-- IN_LEN (R24). -/
  inLen : Word
  /-- OUT_CAP (R25). -/
  outCap : Word
  /-- RESULT (R26). -/
  result : Word
  /-- IN_BUF with its written-marks (R30, R32). -/
  inBuf : Memory
  /-- OUT_BUF with its written-marks (R31, R32). -/
  outBuf : Memory
  /-- lat.cmd of the engine latch (R33). Logs 6 and 23 say what the latch holds while idle. -/
  latCmd : Word
  /-- lat.in_len (R33). -/
  latInLen : Word
  /-- lat.out_cap (R33). -/
  latOutCap : Word
  /-- The accumulator (R34), below 2 to the ACC_BITS. -/
  acc : Nat
  /-- The reset input (spec/70_reset_and_hazards.md R170). Log 8. -/
  resetIn : Bool
  /-- The host's script (spec/30_encoding.md R70). -/
  script : List HostLine
  /-- The line of the script the host runs next. -/
  pos : Nat
  /-- The host's temporary `t` (R70). -/
  temp : Word
  /-- The model's own: how many host steps still come before COMPLETE while BUSY = 1 (spec/40_command.md R83). Log 3. -/
  wait : Nat
  /-- The model's own: delays supplied for the commands to come, used before the free ones. Log 3. -/
  delays : List Nat
  /-- The model's own: the index of the next free value. Log 4. -/
  draws : Nat
  deriving DecidableEq, Repr

/-- The machine right after reset (spec/10_state.md R39, spec/70_reset_and_hazards.md R171), with the default
parameters of spec/00_scope.md R5 and no host script loaded. The latch and the accumulator have no value in the spec
(logs 5 and 6); the host's own fields are log 12 and log 13. -/
def State.reset : State where
  cfg := defaultConfig
  ie := false
  busy := false
  done := false
  ovr := false
  code := .ok
  cmd := 0#32
  inLen := 0#32
  outCap := 0#32
  result := 0#32
  inBuf := []
  outBuf := []
  latCmd := 0#32
  latInLen := 0#32
  latOutCap := 0#32
  acc := 0
  resetIn := false
  script := []
  pos := 0
  temp := 0#32
  wait := 0
  delays := []
  draws := 0

end Sys2Proof.Machine
end

