-- ==== Sys2Proof/Machine/Flags.lean ====
section
/-! DEFINITION. STATUS, CTRL and IRQ as functions of the state (spec/10_state.md R20 to R22, R35, R38), and the
numbers of the status codes (spec/60_exceptions.md R150). -/

namespace Sys2Proof.Machine

/-- The number of a status code (spec/60_exceptions.md R150). -/
def codeNumber : StatusCode → Nat
  | .ok => 0
  | .invalidSymbol => 1
  | .checksumMismatch => 2
  | .allocationFailure => 3
  | .outputTooSmall => 4
  | .invalidLength => 5
  | .illegalCommand => 6

/-- What a read of STATUS returns (spec/10_state.md R21): BUSY, DONE, OVR in bits 0 to 2, CODE in bits 11:8,
the reserved bits 0. -/
def statusWord (s : State) : Word :=
  BitVec.ofNat 32 (s.busy.toNat + 2 * s.done.toNat + 4 * s.ovr.toNat + 256 * codeNumber s.code)

/-- What a read of CTRL returns (spec/10_state.md R20): IE in bit 0, the rest 0. -/
def ctrlWord (s : State) : Word := BitVec.ofNat 32 s.ie.toNat

/-- The IRQ line (spec/10_state.md R35, spec/60_exceptions.md R160). -/
def irq (s : State) : Bool := s.ie && s.done

/-- A write of `v` to STATUS (spec/10_state.md R22): bit 1 clears DONE, bit 2 clears OVR. -/
def clearStatus (v : Word) (s : State) : State :=
  { s with done := s.done && !v.getLsbD 1, ovr := s.ovr && !v.getLsbD 2 }

/-- A write of `v` to CTRL (spec/10_state.md R20), busy or not. -/
def writeCtrl (v : Word) (s : State) : State := { s with ie := v.getLsbD 0 }

end Sys2Proof.Machine
end

