-- ==== Sys2Proof/Machine/Ops.lean ====
section
/-! DEFINITION. The named operations on memory and registers: byte and wide accesses (spec/00_scope.md R9), issuing a
command and ending one (spec/40_command.md R75 to R77, R80), the acknowledge, and reset (spec/70_reset_and_hazards.md R170). -/

namespace Sys2Proof.Machine

/-! ### Buffers -/

/-- Byte `a` of a buffer, if it has been written. -/
def Memory.read? : Memory → Nat → Option Byte
  | [], _ => none
  | (x, b) :: rest, a => if x = a then some b else Memory.read? rest a

/-- Write byte `a` and mark it, keeping the offsets in rising order. -/
def Memory.write : Memory → Nat → Byte → Memory
  | [], a, b => [(a, b)]
  | (x, c) :: rest, a, b =>
    if a < x then (a, b) :: (x, c) :: rest
    else if a = x then (a, b) :: rest
    else (x, c) :: Memory.write rest a b

/-- The canonical form of a buffer of `size` bytes: offsets strictly rising, each below `size`. -/
def Memory.wf (size : Nat) (m : Memory) : Bool :=
  decide (m.Pairwise fun c d => c.1 < d.1) && m.all fun c => decide (c.1 < size)

/-- MemRead(B, off, n) of spec/00_scope.md R9: n bytes, least significant first; none if one is unwritten. -/
def memRead (m : Memory) (off : Nat) : Nat → Option Nat
  | 0 => some 0
  | n + 1 =>
    match m.read? off, memRead m (off + 1) n with
    | some b, some v => some (b.toNat + 256 * v)
    | _, _ => none

/-- MemWrite(B, off, n, v) of spec/00_scope.md R9: the low n bytes of v, least significant first. -/
def memWrite (m : Memory) (off : Nat) : Nat → Nat → Memory
  | 0, _ => m
  | n + 1, v => memWrite (m.write off (BitVec.ofNat 8 v)) (off + 1) n (v / 256)

/-! ### Ending a command -/

/-- finish(code, info) of spec/40_command.md R80. An error code makes this the error entry of
spec/60_exceptions.md R156: it changes STATUS and RESULT and nothing else. DESIGN CHOICE: the engine latch, which the spec leaves
unspecified while idle, keeps the ended command's values (log 23). -/
def finish (code : StatusCode) (info : Nat) (s : State) : State :=
  { s with code := code, result := BitVec.ofNat 32 info, busy := false, done := true }

/-- What every positional command leaves in the accumulator: a value nobody knows, on every path that ends
(spec/10_state.md R34, R39). Log 5. -/
def releaseAcc (s : State) : State :=
  { s with acc := Config.freeAcc s.draws % 2 ^ s.cfg.accBits, draws := s.draws + 1 }

/-- `releaseAcc` on the next state of a command, if it has one. -/
def andReleaseAcc : Host.Outcome State Fault Refusal → Host.Outcome State Fault Refusal
  | .next s => .next (releaseAcc s)
  | .fault r => .fault r
  | .refused r => .refused r

/-! ### Issuing a command -/

/-- How long the command that starts now takes (spec/40_command.md R83): a delay someone supplied, or a free
value. Log 3. -/
def nextDelay (s : State) : Nat :=
  match s.delays with
  | d :: _ => d
  | [] => Config.freeDelay s.draws

/-- What every accepted CMD write does first (spec/10_state.md R23, spec/40_command.md R75). -/
def acceptCmd (v : Word) (s : State) : State :=
  { s with cmd := v, done := false, code := .ok, result := 0#32 }

/-- illegal(v) of spec/40_command.md R76. -/
def illegalCmd (s : State) : State :=
  { s with code := .illegalCommand, result := 0#32, done := true }

/-- The engine latches of start(v) (spec/10_state.md R33, spec/40_command.md R77). -/
def latchCmd (v : Word) (s : State) : State :=
  { s with latCmd := v, latInLen := s.inLen, latOutCap := s.outCap, busy := true }

/-- start(v) of spec/40_command.md R77, with the time its COMPLETE will take drawn. -/
def startCmd (v : Word) (s : State) : State :=
  { latchCmd v s with wait := nextDelay s, delays := s.delays.tail, draws := s.draws + 1 }

/-- issue(v) of spec/40_command.md R75. -/
def issue (v : Word) (s : State) : State :=
  if legal v then startCmd v (acceptCmd v s) else illegalCmd (acceptCmd v s)

/-- The busy lock (spec/10_state.md R29): the write is dropped and OVR set. -/
def dropWrite (s : State) : State := { s with ovr := true }

/-! ### Reset -/

/-- The reset input asserted (spec/70_reset_and_hazards.md R170): the block's registers, marks and engine go to
their reset values; its parameters, and the host, which is not part of the block, stay. Log 8. -/
def blockReset (s : State) : State :=
  { State.reset with
    cfg := s.cfg, script := s.script, pos := s.pos, temp := s.temp, delays := s.delays, draws := s.draws }

/-! ### Whose turn it is -/

/-- The host has no further line to run: it stands at HALT or past the last line. -/
def hostIdle (s : State) : Bool :=
  match s.script[s.pos]? with
  | none => true
  | some l => l == .halt

/-- COMPLETE is the next step: BUSY = 1 (spec/40_command.md R79) and its delay has run out, or no other agent
has a step left (spec/70_reset_and_hazards.md R180). Log 3. -/
def engineTurn (s : State) : Bool := s.busy && (s.wait == 0 || hostIdle s)

/-- One host step passes while a command runs. -/
def tick (s : State) : State := if s.busy then { s with wait := s.wait - 1 } else s

/-! ### Placing a command for the next step -/

/-- The machine as it stands when `v` has just been issued with BUSY = 0 and COMPLETE comes next. Log 12. -/
def placeLegal (v : Word) (s : State) : State :=
  { latchCmd v (acceptCmd v s) with wait := 0, resetIn := false }

/-- The machine about to run a host line that writes `v` to CMD. Log 12. -/
def placeIllegal (v : Word) (s : State) : State :=
  { s with
    script := s.script.take s.pos ++ .write .w32 0x00C (.imm v) :: s.script.drop s.pos
    pos := (s.script.take s.pos).length
    busy := false
    resetIn := false }

/-- The command word `v` placed so that the very next step runs it. -/
def placeCommand (v : Word) (s : State) : State :=
  if legal v then placeLegal v s else placeIllegal v s

end Sys2Proof.Machine
end

