-- ==== Sys2Proof/Machine/Operands.lean ====
section
/-! DEFINITION. The implicit operands of a command (spec/30_encoding.md R62): input and output elements
(spec/00_scope.md R9, spec/20_memory.md R46 and R57), output capacity, and the alphabet primitives (spec/00_scope.md R10). Elements are
the naturals the spec's pseudocode computes with (R7, R8). -/

namespace Sys2Proof.Machine

/-- Elements i, i+1, … of a buffer, n of them, each of e bytes; none if a byte is unwritten. -/
def elemsFrom (m : Memory) (e : Nat) : Nat → Nat → Option (List Nat)
  | _, 0 => some []
  | i, n + 1 =>
    match memRead m (i * e) e, elemsFrom m e (i + 1) n with
    | some v, some vs => some (v :: vs)
    | _, _ => none

/-- InElems(e, n) of spec/00_scope.md R9, over the given IN_BUF. -/
def inElems (m : Memory) (e n : Nat) : Option (List Nat) := elemsFrom m e 0 n

/-- Write elements i, i+1, … of a buffer. -/
def writeElemsFrom (m : Memory) (e : Nat) : Nat → List Nat → Memory
  | _, [] => m
  | i, v :: vs => writeElemsFrom (memWrite m (i * e) e v) e (i + 1) vs

/-- OutElems(e, S) of spec/00_scope.md R9, over the given OUT_BUF. -/
def outElems (m : Memory) (e : Nat) (elems : List Nat) : Memory := writeElemsFrom m e 0 elems

/-- The output capacity of a fill (spec/40_command.md R79): min(lat.out_cap, OUT_SIZE div e_out). -/
def capacity (eOut : Nat) (s : State) : Nat := min s.latOutCap.toNat (s.cfg.outSize / eOut)

/-- A[d] of spec/00_scope.md R10: the character of digit value d. -/
def charOf (alphabet : List Byte) (d : Nat) : Nat := (alphabet.getD d 0#8).toNat

/-- idx(A, c) of spec/00_scope.md R10, or none where inA(A, c) is false. -/
def digitOf? : List Byte → Nat → Option Nat
  | [], _ => none
  | a :: rest, c => if a.toNat = c then some 0 else (digitOf? rest c).map (· + 1)

/-- What a command function answers (spec/40_command.md R73): an error with its information word, or a value. -/
inductive Answer (α : Type) where
  | err (code : StatusCode) (info : Nat)
  | ok (value : α)
  deriving DecidableEq, Repr

/-- Apply a function to the value of an answer. -/
def Answer.map {α β : Type} (f : α → β) : Answer α → Answer β
  | .err code info => .err code info
  | .ok x => .ok (f x)

/-- The validation loop of spec/41_positional.md R90 and spec/42_base64.md R102 from index i on: the digit value of every
character, or INVALID_SYMBOL with the lowest index whose character is not in the alphabet. -/
def digitValues (alphabet : List Byte) : Nat → List Nat → Answer (List Nat)
  | _, [] => .ok []
  | i, c :: rest =>
    match digitOf? alphabet c with
    | none => .err .invalidSymbol i
    | some d => (digitValues alphabet (i + 1) rest).map (d :: ·)

/-- Cut a sequence into groups of k, the last one possibly shorter; the first argument bounds their number. -/
def chunksUpTo {α : Type} : Nat → Nat → List α → List (List α)
  | 0, _, _ => []
  | _ + 1, _, [] => []
  | fuel + 1, k, x :: xs => (x :: xs).take k :: chunksUpTo fuel k ((x :: xs).drop k)

/-- The groups of k elements a sequence falls into. -/
def chunks {α : Type} (k : Nat) (xs : List α) : List (List α) := chunksUpTo xs.length k xs

/-- ceil(n / k). -/
def ceilDiv (n k : Nat) : Nat := (n + k - 1) / k

end Sys2Proof.Machine
end

