-- ==== Sys2Proof/Machine/Sequencing.lean ====
section
/-! DEFINITION. COMPLETE, the frame every command runs in (spec/40_command.md R78 and R79). -/

namespace Sys2Proof.Machine

/-- The query branch of COMPLETE: it only finishes. -/
def completeQuery (answer : Answer Nat) (s : State) : State :=
  match answer with
  | .err code info => finish code info s
  | .ok len => finish .ok len s

/-- The fill branch of COMPLETE: OUT_BUF is written only where the output fits. -/
def completeFill (eOut : Nat) (answer : Answer (List Nat)) (s : State) : State :=
  match answer with
  | .err code info => finish code info s
  | .ok elems =>
    if elems.length > capacity eOut s then finish .outputTooSmall elems.length s
    else finish .ok elems.length { s with outBuf := outElems s.outBuf eOut elems }

/-- COMPLETE of spec/40_command.md R79 for a command with these element sizes, query function and fill function.
It reads the latch, IN_BUF and the configuration (spec/10_state.md R33). The order of the checks is their priority
(spec/60_exceptions.md R153). That BUSY = 1 is the step's condition for running it, not checked again here. Log 2. -/
def complete (eIn eOut : Nat) (query : List Nat → Answer Nat) (fill : List Nat → Answer (List Nat))
    (m : Mode) (s : State) : Host.Outcome State Fault Refusal :=
  let n := s.latInLen.toNat
  if n * eIn > s.cfg.inSize then .next (finish .invalidLength n s)
  else
    match inElems s.inBuf eIn n with
    | none => .fault .uninitRead
    | some x =>
      match m with
      | .query => .next (completeQuery (query x) s)
      | .fill => .next (completeFill eOut (fill x) s)

end Sys2Proof.Machine
end

