-- ==== Sys2Proof/Machine/Base64.lean ====
section
/-! DEFINITION. The fixed-ratio printable codec (spec/42_base64.md): B64.ENC, B64.DEC. -/

namespace Sys2Proof.Machine

/-- v[hi:lo] of spec/00_scope.md R7, with the field's width in place of hi. -/
def bitField (v lo width : Nat) : Nat := v / 2 ^ lo % 2 ^ width

/-- The 24-bit group of up to three bytes, the first most significant, missing bytes 0
(spec/42_base64.md R100 and R101). -/
def groupOfBytes (blk : List Nat) : Nat :=
  blk.getD 0 0 * 2 ^ 16 + blk.getD 1 0 * 2 ^ 8 + blk.getD 2 0

/-- The four symbols of a block of r bytes: r + 1 real ones, then padding, placed by r alone
(spec/42_base64.md R101, spec/90_conflicts.md C3). -/
def encodeBlock (alphabet : List Byte) (pad : Byte) (blk : List Nat) : List Nat :=
  let v := groupOfBytes blk
  ([bitField v 18 6, bitField v 12 6, bitField v 6 6, bitField v 0 6].map (charOf alphabet)).take (blk.length + 1)
    ++ List.replicate (3 - blk.length) pad.toNat

/-- F_B64ENC (spec/42_base64.md R101). -/
def fillB64Enc (alphabet : List Byte) (pad : Byte) (payload : List Nat) : Answer (List Nat) :=
  .ok ((chunks 3 payload).flatMap (encodeBlock alphabet pad))

/-- Q_B64ENC (spec/42_base64.md R101). -/
def queryB64Enc (payload : List Nat) : Answer Nat := .ok (4 * ceilDiv payload.length 3)

/-- pads(S) of spec/42_base64.md R102: 0, 1 or 2 padding bytes at the end. -/
def padCount (pad : Byte) (text : List Nat) : Nat :=
  match text.reverse with
  | last :: before :: _ =>
    if last = pad.toNat then (if before = pad.toNat then 2 else 1) else 0
  | [last] => if last = pad.toNat then 1 else 0
  | [] => 0

/-- The 24-bit group of up to four indices, the first most significant, missing ones 0
(spec/42_base64.md R100 and R102). -/
def groupOfIndices (grp : List Nat) : Nat :=
  grp.getD 0 0 * 64 ^ 3 + grp.getD 1 0 * 64 ^ 2 + grp.getD 2 0 * 64 + grp.getD 3 0

/-- The bytes of a group of k indices: 3 where k is 4, and otherwise k - 1 (spec/42_base64.md R102). -/
def decodeGroup (grp : List Nat) : List Nat :=
  let v := groupOfIndices grp
  [bitField v 16 8, bitField v 8 8, bitField v 0 8].take (grp.length - 1)

/-- F_B64DEC (spec/42_base64.md R102). -/
def fillB64Dec (alphabet : List Byte) (pad : Byte) (text : List Nat) : Answer (List Nat) :=
  if text.length % 4 ≠ 0 then .err .invalidLength text.length
  else
    (digitValues alphabet 0 (text.take (text.length - padCount pad text))).map fun c =>
      (chunks 4 c).flatMap decodeGroup

/-- Q_B64DEC (spec/42_base64.md R102): it checks the length and nothing else. -/
def queryB64Dec (pad : Byte) (text : List Nat) : Answer Nat :=
  if text.length % 4 ≠ 0 then .err .invalidLength text.length
  else .ok (3 * (text.length / 4) - padCount pad text)

/-- B64.ENC (spec/42_base64.md R101). -/
def execB64Enc (m : Mode) (s : State) : Host.Outcome State Fault Refusal :=
  complete 1 1 queryB64Enc (fillB64Enc s.cfg.alpha64.toList s.cfg.pad64) m s

/-- B64.DEC (spec/42_base64.md R102). -/
def execB64Dec (m : Mode) (s : State) : Host.Outcome State Fault Refusal :=
  complete 1 1 (queryB64Dec s.cfg.pad64) (fillB64Dec s.cfg.alpha64.toList s.cfg.pad64) m s

end Sys2Proof.Machine
end

