-- ==== Sys2Proof/Machine/Numerals.lean ====
section
/-! DEFINITION. The big-integer helpers of spec/00_scope.md R11, exact on naturals (R12, spec/41_positional.md R93). -/

namespace Sys2Proof.Machine

/-- value_b(D): the value of a digit sequence, most significant first. -/
def valueOf (b : Nat) (digits : List Nat) : Nat := digits.foldl (fun acc d => acc * b + d) 0

/-- be_value(P): the big-endian value of a payload (spec/20_memory.md R47). -/
def beValue (payload : List Nat) : Nat := valueOf 256 payload

/-- The loop of digits_b, with a bound on the number of digits. -/
def digitsUpTo : Nat → Nat → Nat → List Nat
  | 0, _, _ => []
  | fuel + 1, b, n => if n = 0 then [] else digitsUpTo fuel b (n / b) ++ [n % b]

/-- digits_b(N): the minimal digits, most significant first; none for 0 (spec/90_conflicts.md C1). A number below
2^k has at most k digits. -/
def digitsOf (b n : Nat) : List Nat := digitsUpTo (n.log2 + 1) b n

/-- min_be_bytes(N). -/
def minBeBytes (n : Nat) : List Nat := digitsOf 256 n

/-- lead(S, x): how many elements at the front of S are x. -/
def lead (s : List Nat) (x : Nat) : Nat := (s.takeWhile (· == x)).length

end Sys2Proof.Machine
end

