-- ==== Sys2Proof/Machine/Positional.lean ====
section
/-! DEFINITION. The positional codec (spec/41_positional.md): P58.ENC, P58.DEC, P6.ENC, P6.DEC. -/

namespace Sys2Proof.Machine

/-- F_P58ENC (spec/41_positional.md R89). -/
def fillP58Enc (alphabet : List Byte) (payload : List Nat) : Answer (List Nat) :=
  .ok (List.replicate (lead payload 0) (charOf alphabet 0)
    ++ (digitsOf 58 (beValue payload)).map (charOf alphabet))

/-- Q_P58ENC (spec/41_positional.md R89). -/
def queryP58Enc (payload : List Nat) : Answer Nat :=
  .ok (lead payload 0 + (digitsOf 58 (beValue payload)).length)

/-- F_P58DEC (spec/41_positional.md R90): the zero-symbols at the front become zero bytes. -/
def fillP58Dec (alphabet : List Byte) (text : List Nat) : Answer (List Nat) :=
  (digitValues alphabet 0 text).map fun ds =>
    List.replicate (lead text (charOf alphabet 0)) 0
      ++ minBeBytes (valueOf 58 (ds.drop (lead text (charOf alphabet 0))))

/-- Q_P58DEC (spec/41_positional.md R90): it validates every symbol. -/
def queryP58Dec (alphabet : List Byte) (text : List Nat) : Answer Nat :=
  (digitValues alphabet 0 text).map fun ds =>
    lead text (charOf alphabet 0)
      + (minBeBytes (valueOf 58 (ds.drop (lead text (charOf alphabet 0))))).length

/-- F_P6ENC (spec/41_positional.md R91): no leading-zero run. -/
def fillP6Enc (alphabet : List Byte) (payload : List Nat) : Answer (List Nat) :=
  .ok ((digitsOf 6 (beValue payload)).map (charOf alphabet))

/-- Q_P6ENC (spec/41_positional.md R91). -/
def queryP6Enc (payload : List Nat) : Answer Nat :=
  .ok (digitsOf 6 (beValue payload)).length

/-- F_P6DEC (spec/41_positional.md R92): no zero-symbol stripping. -/
def fillP6Dec (alphabet : List Byte) (text : List Nat) : Answer (List Nat) :=
  (digitValues alphabet 0 text).map fun ds => minBeBytes (valueOf 6 ds)

/-- Q_P6DEC (spec/41_positional.md R92): it validates every symbol. -/
def queryP6Dec (alphabet : List Byte) (text : List Nat) : Answer Nat :=
  (digitValues alphabet 0 text).map fun ds => (minBeBytes (valueOf 6 ds)).length

/-- P58.ENC (spec/41_positional.md R89). -/
def execP58Enc (m : Mode) (s : State) : Host.Outcome State Fault Refusal :=
  andReleaseAcc (complete 1 1 queryP58Enc (fillP58Enc s.cfg.alpha58.toList) m s)

/-- P58.DEC (spec/41_positional.md R90). -/
def execP58Dec (m : Mode) (s : State) : Host.Outcome State Fault Refusal :=
  andReleaseAcc (complete 1 1 (queryP58Dec s.cfg.alpha58.toList) (fillP58Dec s.cfg.alpha58.toList) m s)

/-- P6.ENC (spec/41_positional.md R91). -/
def execP6Enc (m : Mode) (s : State) : Host.Outcome State Fault Refusal :=
  andReleaseAcc (complete 1 1 queryP6Enc (fillP6Enc s.cfg.alpha6.toList) m s)

/-- P6.DEC (spec/41_positional.md R92). -/
def execP6Dec (m : Mode) (s : State) : Host.Outcome State Fault Refusal :=
  andReleaseAcc (complete 1 1 (queryP6Dec s.cfg.alpha6.toList) (fillP6Dec s.cfg.alpha6.toList) m s)

end Sys2Proof.Machine
end

