-- ==== Sys2Proof/Machine/WordWidth.lean ====
section
/-! DEFINITION. The word-width converter (spec/43_wordwidth.md): PACK8_32, UNPACK32_8, PACK16_32, UNPACK32_16. -/

namespace Sys2Proof.Machine

/-- One wide lane from its narrow lanes of wn bits, sub-lane 0 least significant (spec/43_wordwidth.md R110). -/
def laneOf (wn : Nat) : List Nat → Nat
  | [] => 0
  | x :: xs => x + 2 ^ wn * laneOf wn xs

/-- pack_r of spec/43_wordwidth.md R110, with r = 32 / wn. -/
def packLanes (wn : Nat) (xs : List Nat) : List Nat := (chunks (32 / wn) xs).map (laneOf wn)

/-- sub(w, j) for every j below r (spec/43_wordwidth.md R110). -/
def subLanes (wn w : Nat) : List Nat :=
  (List.range (32 / wn)).map fun j => w / 2 ^ (wn * j) % 2 ^ wn

/-- One more than the highest index of a non-zero element, 0 if there is none. -/
def keptLength : List Nat → Nat
  | [] => 0
  | x :: xs => if keptLength xs = 0 then (if x = 0 then 0 else 1) else keptLength xs + 1

/-- top(w) of spec/43_wordwidth.md R110: the sub-lanes kept from the highest-index wide lane. -/
def topLanes (wn w : Nat) : Nat := keptLength (subLanes wn w)

/-- unpack_r of spec/43_wordwidth.md R110: only the highest-index lane is trimmed. -/
def unpackLanes (wn : Nat) : List Nat → List Nat
  | [] => []
  | [w] => (subLanes wn w).take (topLanes wn w)
  | w :: v :: ws => subLanes wn w ++ unpackLanes wn (v :: ws)

/-- The length an unpack query returns (spec/43_wordwidth.md R112 and R114): r*(n-1) + top of the last lane. -/
def unpackedLength (wn : Nat) (ws : List Nat) : Nat :=
  match ws.getLast? with
  | none => 0
  | some w => 32 / wn * (ws.length - 1) + topLanes wn w

/-- PACK8_32 (spec/43_wordwidth.md R111). -/
def execPack8To32 (m : Mode) (s : State) : Host.Outcome State Fault Refusal :=
  complete 1 4 (fun x => .ok (ceilDiv x.length 4)) (fun x => .ok (packLanes 8 x)) m s

/-- UNPACK32_8 (spec/43_wordwidth.md R112). -/
def execUnpack32To8 (m : Mode) (s : State) : Host.Outcome State Fault Refusal :=
  complete 4 1 (fun w => .ok (unpackedLength 8 w)) (fun w => .ok (unpackLanes 8 w)) m s

/-- PACK16_32 (spec/43_wordwidth.md R113). -/
def execPack16To32 (m : Mode) (s : State) : Host.Outcome State Fault Refusal :=
  complete 2 4 (fun x => .ok (ceilDiv x.length 2)) (fun x => .ok (packLanes 16 x)) m s

/-- UNPACK32_16 (spec/43_wordwidth.md R114). -/
def execUnpack32To16 (m : Mode) (s : State) : Host.Outcome State Fault Refusal :=
  complete 4 2 (fun w => .ok (unpackedLength 16 w)) (fun w => .ok (unpackLanes 16 w)) m s

end Sys2Proof.Machine
end

