-- ==== Sys2Proof/Machine/Dispatch.lean ====
section
/-! DEFINITION. The meaning of each command: its COMPLETE (spec/40_command.md R79), one arm per constructor of Instr. -/

namespace Sys2Proof.Machine

def exec (i : Instr) (s : State) : Host.Outcome State Fault Refusal :=
  match i with
  | .p58Enc m => Sys2Proof.Machine.execP58Enc m s
  | .p58Dec m => Sys2Proof.Machine.execP58Dec m s
  | .p6Enc m => Sys2Proof.Machine.execP6Enc m s
  | .p6Dec m => Sys2Proof.Machine.execP6Dec m s
  | .b64Enc m => Sys2Proof.Machine.execB64Enc m s
  | .b64Dec m => Sys2Proof.Machine.execB64Dec m s
  | .pack8To32 m => Sys2Proof.Machine.execPack8To32 m s
  | .unpack32To8 m => Sys2Proof.Machine.execUnpack32To8 m s
  | .pack16To32 m => Sys2Proof.Machine.execPack16To32 m s
  | .unpack32To16 m => Sys2Proof.Machine.execUnpack32To16 m s

end Sys2Proof.Machine
end

