-- ==== Sys2Proof/Machine/Bus.lean ====
section
/-! DEFINITION. Host accesses to the aperture: its map (spec/20_memory.md R40, R41), the registers (spec/10_state.md R17 to R29,
spec/20_memory.md R42) and the buffer windows (spec/20_memory.md R43, R48). -/

namespace Sys2Proof.Machine

/-- A region of the aperture with the offset inside it (spec/20_memory.md R41). -/
inductive Region where
  | registers (off : Nat)
  | inWindow (off : Nat)
  | outWindow (off : Nat)
  | outside
  deriving DecidableEq, Repr

/-- The aperture map of spec/20_memory.md R41. -/
def regionOf (off : Nat) : Region :=
  if off < 0x10000 then .registers off
  else if off < 0x20000 then .inWindow (off - 0x10000)
  else if off < 0x30000 then .outWindow (off - 0x20000)
  else .outside

/-- The aperture offset a bus address selects, if the block decodes it (spec/20_memory.md R40). -/
def apertureOffset (address : Nat) : Option Nat :=
  if Config.base ≤ address ∧ address < Config.base + 0x30000 then some (address - Config.base) else none

/-- Does this access reach a register (spec/20_memory.md R42)? -/
def registerAccess (w : Width) (off : Nat) : Bool := w == .w32 && off % 4 == 0

/-- Is a buffer access performed: naturally aligned and wholly backed (spec/20_memory.md R43)? -/
def bufferAccess (w : Width) (off size : Nat) : Bool := off % w.bytes == 0 && decide (off + w.bytes ≤ size)

/-- A register read (spec/10_state.md R18 to R28); every other offset is reserved and reads 0. -/
def readRegister (off : Nat) (s : State) : Word :=
  match off with
  | 0x000 => s.cfg.idValue
  | 0x004 => ctrlWord s
  | 0x008 => statusWord s
  | 0x00C => s.cmd
  | 0x010 => s.inLen
  | 0x014 => s.outCap
  | 0x018 => s.result
  | 0x01C => BitVec.ofNat 32 s.cfg.inSize
  | 0x020 => BitVec.ofNat 32 s.cfg.outSize
  | _ => 0#32

/-- A write to CMD (spec/10_state.md R23). -/
def writeCmd (v : Word) (s : State) : State := if s.busy then dropWrite s else issue v s

/-- A write to IN_LEN (spec/10_state.md R24). -/
def writeInLen (v : Word) (s : State) : State := if s.busy then dropWrite s else { s with inLen := v }

/-- A write to OUT_CAP (spec/10_state.md R25). -/
def writeOutCap (v : Word) (s : State) : State := if s.busy then dropWrite s else { s with outCap := v }

/-- A register write (spec/10_state.md R18 to R29); read-only registers and reserved offsets ignore it. -/
def writeRegister (off : Nat) (v : Word) (s : State) : State :=
  match off with
  | 0x004 => writeCtrl v s
  | 0x008 => clearStatus v s
  | 0x00C => writeCmd v s
  | 0x010 => writeInLen v s
  | 0x014 => writeOutCap v s
  | _ => s

/-- A write into the IN_BUF window (spec/20_memory.md R43). -/
def writeInWindow (w : Width) (off : Nat) (v : Word) (s : State) : State :=
  if !bufferAccess w off s.cfg.inSize then s
  else if s.busy then dropWrite s
  else { s with inBuf := memWrite s.inBuf off w.bytes v.toNat }

/-- A write into the OUT_BUF window (spec/20_memory.md R43). -/
def writeOutWindow (w : Width) (off : Nat) (v : Word) (s : State) : State :=
  if !bufferAccess w off s.cfg.outSize then s
  else if s.busy then dropWrite s
  else { s with outBuf := memWrite s.outBuf off w.bytes v.toNat }

/-- A host write of width w; the low bytes of v are the bus data. Outside the aperture it reaches no part of
the block (log 10). -/
def busWrite (w : Width) (off : Nat) (v : Word) (s : State) : Host.Outcome State Fault Refusal :=
  match regionOf off with
  | .registers o => .next (if registerAccess w o then writeRegister o v s else s)
  | .inWindow o => .next (writeInWindow w o v s)
  | .outWindow o => .next (writeOutWindow w o v s)
  | .outside => .fault .outsideAperture

/-- A buffer read that is performed: the value, or UNINIT_READ (spec/20_memory.md R43, spec/10_state.md R32). -/
def readBuffer (m : Memory) (w : Width) (off : Nat) : Except Fault Word :=
  match memRead m off w.bytes with
  | some v => .ok (BitVec.ofNat 32 v)
  | none => .error .uninitRead

/-- The free value of a busy OUT_BUF read, of the access's width (spec/20_memory.md R48). Log 4. -/
def freeReadOf (w : Width) (draw : Nat) : Word :=
  BitVec.ofNat 32 ((Config.freeRead draw).toNat % 256 ^ w.bytes)

/-- Is this the read whose value is free: performed, in OUT_BUF, while BUSY = 1 (spec/20_memory.md R43, R48)? -/
def readIsFree (w : Width) (off : Nat) (s : State) : Bool :=
  match regionOf off with
  | .outWindow o => s.busy && bufferAccess w o s.cfg.outSize
  | _ => false

/-- The value of a host read of width w (spec/20_memory.md R42, R43). An access that is not performed reads 0. -/
def busRead (w : Width) (off : Nat) (s : State) : Except Fault Word :=
  match regionOf off with
  | .registers o => .ok (if registerAccess w o then readRegister o s else 0#32)
  | .inWindow o => if bufferAccess w o s.cfg.inSize then readBuffer s.inBuf w o else .ok 0#32
  | .outWindow o =>
    if !bufferAccess w o s.cfg.outSize then .ok 0#32
    else if s.busy then .ok (freeReadOf w s.draws)
    else readBuffer s.outBuf w o
  | .outside => .error .outsideAperture

/-- The state after a host read: reads have no side effects (spec/20_memory.md R44), but a free value is used once. -/
def afterRead (w : Width) (off : Nat) (s : State) : State :=
  if readIsFree w off s then { s with draws := s.draws + 1 } else s

end Sys2Proof.Machine
end

