-- ==== Sys2Proof/Machine/Script.lean ====
section
/-! DEFINITION. The host agent: the lines of a host script (spec/30_encoding.md R70), their bus transactions, and the
pseudo-instructions (R71). -/

namespace Sys2Proof.Machine

/-- The position of the line `l:` in a script. -/
def labelIndex : List HostLine → Nat → Option Nat
  | [], _ => none
  | .label k :: rest, l => if k = l then some 0 else (labelIndex rest l).map (· + 1)
  | _ :: rest, l => (labelIndex rest l).map (· + 1)

/-- Continue at a label. -/
def jumpTo (l : Nat) (s : State) : Host.Outcome State Fault Refusal :=
  match labelIndex s.script l with
  | some k => .next { s with pos := k }
  | none => .refused (.noSuchLabel l)

/-- Continue at the next line. -/
def nextLine (s : State) : State := { s with pos := s.pos + 1 }

/-- What a write line sends (spec/30_encoding.md R70). -/
def dataOf (d : HostData) (s : State) : Word :=
  match d with
  | .imm v => v
  | .temp => s.temp

/-- A write line: the bus access, then the next line. -/
def runWrite (w : Width) (off : Nat) (d : HostData) (s : State) : Host.Outcome State Fault Refusal :=
  match busWrite w off (dataOf d s) s with
  | .next t => .next (nextLine t)
  | .fault r => .fault r
  | .refused r => .refused r

/-- A read line: the value goes into `t`, zero-extended, then the next line. Log 19. -/
def runRead (w : Width) (off : Nat) (s : State) : Host.Outcome State Fault Refusal :=
  match busRead w off s with
  | .ok v => .next (nextLine { afterRead w off s with temp := v })
  | .error r => .fault r

/-- One line of a host script (spec/30_encoding.md R70). HALT is the end: nothing changes. -/
def runLine (l : HostLine) (s : State) : Host.Outcome State Fault Refusal :=
  match l with
  | .write w off d => runWrite w off d s
  | .read w off => runRead w off s
  | .bit k l => if s.temp.getLsbD k.val then jumpTo l s else .next (nextLine s)
  | .bnz l => if s.temp = 0#32 then .next (nextLine s) else jumpTo l s
  | .jmp l => jumpTo l s
  | .label _ => .next (nextLine s)
  | .halt => .next s

/-- One step of the host: the line at its position; with none left it does nothing. Log 20. -/
def hostStep (s : State) : Host.Outcome State Fault Refusal :=
  match s.script[s.pos]? with
  | none => .next s
  | some l => runLine l (tick s)

/-- The bus transaction of a line when the temporary holds `t` (spec/30_encoding.md R70); control lines have none. -/
def transaction (l : HostLine) (t : Word) : Option BusTransaction :=
  match l with
  | .write w off (.imm v) => some ⟨Config.base + off, w, some (BitVec.ofNat 32 (v.toNat % 256 ^ w.bytes))⟩
  | .write w off .temp => some ⟨Config.base + off, w, some (BitVec.ofNat 32 (t.toNat % 256 ^ w.bytes))⟩
  | .read w off => some ⟨Config.base + off, w, none⟩
  | .bit _ _ | .bnz _ | .jmp _ | .label _ | .halt => none

/-! ### Pseudo-instructions (spec/30_encoding.md R71) -/

/-- `CMD m`. -/
def pseudoCmd (i : Instr) : List HostLine := [.write .w32 0x00C (.imm (encode i))]

/-- `WAITDONE`, with its two fresh labels. -/
def pseudoWaitDone (again finished : Nat) : List HostLine :=
  [.label again, .read .w32 0x008, .bit 1 finished, .jmp again, .label finished]

/-- `RUN m`. -/
def pseudoRun (i : Instr) (again finished : Nat) : List HostLine :=
  pseudoCmd i ++ pseudoWaitDone again finished

/-- `SETLEN n`. -/
def pseudoSetLen (n : Word) : List HostLine := [.write .w32 0x010 (.imm n)]

/-- `SETCAP n`. -/
def pseudoSetCap (n : Word) : List HostLine := [.write .w32 0x014 (.imm n)]

/-- `LDIN [b0, …, bk]`, from IN_BUF byte i on. -/
def pseudoLdInFrom : Nat → List Byte → List HostLine
  | _, [] => []
  | i, b :: rest => .write .w8 (0x10000 + i) (.imm (b.zeroExtend 32)) :: pseudoLdInFrom (i + 1) rest

/-- `LDIN [b0, …, bk]`. -/
def pseudoLdIn (bytes : List Byte) : List HostLine := pseudoLdInFrom 0 bytes

/-- `ACK`: clear DONE and OVR. -/
def pseudoAck : List HostLine := [.write .w32 0x008 (.imm 6#32)]

/-- `QF m`: query, then fill with OUT_CAP the queried length. `cmd` is the command's constructor. -/
def pseudoQueryFill (cmd : Mode → Instr) (a1 f1 a2 f2 : Nat) : List HostLine :=
  pseudoRun (cmd .query) a1 f1
    ++ [.read .w32 0x018, .write .w32 0x014 .temp]
    ++ pseudoRun (cmd .fill) a2 f2

end Sys2Proof.Machine
end

