-- ==== Sys2Proof/Machine/Step.lean ====
section
/-! DEFINITION. One step of the machine: reset, COMPLETE, or the host (spec/00_scope.md R14, spec/40_command.md R72). -/

namespace Sys2Proof.Machine

/-- One step. An asserted reset input acts first (spec/70_reset_and_hazards.md R170); then, when it is the engine's turn,
COMPLETE of the latched command (spec/40_command.md R79); otherwise the host moves. Each is atomic (spec/20_memory.md R49). -/
def step (s : State) : Host.Outcome State Fault Refusal :=
  if s.resetIn then .next (blockReset s)
  else if engineTurn s then
    match decode s.latCmd with
    | .ok i => exec i s
    | .error _ => .refused .illegalLatch
  else hostStep s

/-- `s` with the command word whose low `nbits` bits are those of `w` placed so that the very next step runs it:
a legal word stands issued, with its COMPLETE next; an illegal one is the next host write to CMD. Log 12. -/
def State.withFetchWord (s : State) (nbits w : Nat) : State :=
  placeCommand (BitVec.ofNat 32 (w % 2 ^ nbits)) s

end Sys2Proof.Machine
end

