-- ==== Sys2Proof/WellFormed.lean ====
section
/-! DEFINITION. Which configurations, commands and host scripts the spec admits. -/

namespace Sys2Proof

/-- A buffer size of spec/00_scope.md R5: a multiple of 4, from 4 to 65536. -/
abbrev bufferSizeOk (n : Nat) : Prop := n % 4 = 0 ∧ 4 ≤ n ∧ n ≤ 65536

/-- The alphabets of spec/00_scope.md R5: distinct bytes, and PAD64 not one of ALPHA64. -/
abbrev Config.AlphabetsOk (c : Config) : Prop :=
  c.alpha58.toList.Nodup ∧ c.alpha6.toList.Nodup ∧ c.alpha64.toList.Nodup ∧ c.pad64 ∉ c.alpha64.toList

/-- The constraints of spec/00_scope.md R5 on one instance's parameters. -/
abbrev Config.Wf (c : Config) : Prop :=
  bufferSizeOk c.inSize ∧ bufferSizeOk c.outSize ∧ 8 * c.inSize ≤ c.accBits ∧ c.AlphabetsOk

/-- Every command is well formed: FILL is its only field and both its values are legal
(spec/30_encoding.md R58, R61, R62). -/
abbrev Instr.Wf (i : Instr) : Prop := i.unit ∈ [1, 2, 3, 4, 5]

/-- The labels a script defines, in order. -/
def scriptLabels : List HostLine → List Nat
  | [] => []
  | .label l :: rest => l :: scriptLabels rest
  | _ :: rest => scriptLabels rest

/-- One line of a script that defines `labels`: an access stays inside the aperture
(spec/20_memory.md R40), a constant fits the width it is written with, a jump has a target. -/
def HostLine.wf (labels : List Nat) : HostLine → Bool
  | .write w off (.imm v) => decide (off < 0x30000) && decide (v.toNat < 256 ^ w.bytes)
  | .write _ off .temp => decide (off < 0x30000)
  | .read _ off => decide (off < 0x30000)
  | .bit _ l | .bnz l | .jmp l => labels.contains l
  | .label _ | .halt => true

/-- A well-formed host script (spec/30_encoding.md R70): well-formed lines and no label defined twice. -/
abbrev scriptWf (p : List HostLine) : Prop :=
  (scriptLabels p).Nodup ∧ (p.all fun l => l.wf (scriptLabels p)) = true

end Sys2Proof
end

