-- ==== Sys2Proof/Safety.lean ====
section
/-! DEFINITION. What holds of every state the spec allows, when a run has ended, and what it ends in
(spec/70_reset_and_hazards.md R180). -/

namespace Sys2Proof.Machine

/-- The status codes the block produces (spec/60_exceptions.md R150; spec/93_implementation_defined.md U8 and U9). -/
def producedCodes : List StatusCode :=
  [.ok, .invalidSymbol, .outputTooSmall, .invalidLength, .illegalCommand]

/-- What the spec promises of the state between any two steps. -/
structure BlockInv (s : State) : Prop where
  /-- The parameters meet their constraints (spec/00_scope.md R5). -/
  cfgWf : s.cfg.Wf
  /-- IN_BUF is canonical and inside its size (spec/10_state.md R30). -/
  inBufWf : s.inBuf.wf s.cfg.inSize = true
  /-- OUT_BUF is canonical and inside its size (spec/10_state.md R31). -/
  outBufWf : s.outBuf.wf s.cfg.outSize = true
  /-- The accumulator has ACC_BITS bits (spec/10_state.md R34). -/
  accFits : s.acc < 2 ^ s.cfg.accBits
  /-- CODE is never a reserved code (spec/60_exceptions.md R150, R154, R155). -/
  codeProduced : s.code ∈ producedCodes
  /-- An illegal command left RESULT = 0 (spec/60_exceptions.md R152). -/
  illegalResult : s.code = .illegalCommand → s.result = 0#32
  /-- While BUSY = 1 the latch holds a legal command (spec/40_command.md R77). -/
  busyLegal : s.busy = true → legal s.latCmd = true
  /-- While BUSY = 1 the latch equals the live registers (spec/10_state.md R33). -/
  busyLatch : s.busy = true → s.latCmd = s.cmd ∧ s.latInLen = s.inLen ∧ s.latOutCap = s.outCap
  /-- While BUSY = 1, DONE, CODE and RESULT read 0 (spec/10_state.md R22, R26; spec/70_reset_and_hazards.md R174). -/
  busyClear : s.busy = true → s.done = false ∧ s.code = .ok ∧ s.result = 0#32

/-- The run has ended: the script stands at HALT and BUSY = 0 (spec/70_reset_and_hazards.md R180). -/
def runEnded (s : State) : Bool := s.script[s.pos]? == some .halt && !s.busy

/-- The end state of spec/70_reset_and_hazards.md R180. -/
structure EndState where
  ctrl : Word
  status : Word
  cmd : Word
  inLen : Word
  outCap : Word
  result : Word
  inBuf : Memory
  outBuf : Memory
  irq : Bool
  temp : Word
  deriving DecidableEq, Repr

/-- What a run that has ended shows. -/
def endState (s : State) : Option EndState :=
  if runEnded s then
    some ⟨ctrlWord s, statusWord s, s.cmd, s.inLen, s.outCap, s.result, s.inBuf, s.outBuf, irq s, s.temp⟩
  else none

/-! ### Terms for statements about commands -/

/-- Q_op of spec/40_command.md R73 for each command. -/
def commandQuery (c : Config) (i : Instr) (x : List Nat) : Answer Nat :=
  match i with
  | .p58Enc _ => queryP58Enc x
  | .p58Dec _ => queryP58Dec c.alpha58.toList x
  | .p6Enc _ => queryP6Enc x
  | .p6Dec _ => queryP6Dec c.alpha6.toList x
  | .b64Enc _ => queryB64Enc x
  | .b64Dec _ => queryB64Dec c.pad64 x
  | .pack8To32 _ => .ok (ceilDiv x.length 4)
  | .unpack32To8 _ => .ok (unpackedLength 8 x)
  | .pack16To32 _ => .ok (ceilDiv x.length 2)
  | .unpack32To16 _ => .ok (unpackedLength 16 x)

/-- F_op of spec/40_command.md R73 for each command. -/
def commandFill (c : Config) (i : Instr) (x : List Nat) : Answer (List Nat) :=
  match i with
  | .p58Enc _ => fillP58Enc c.alpha58.toList x
  | .p58Dec _ => fillP58Dec c.alpha58.toList x
  | .p6Enc _ => fillP6Enc c.alpha6.toList x
  | .p6Dec _ => fillP6Dec c.alpha6.toList x
  | .b64Enc _ => fillB64Enc c.alpha64.toList c.pad64 x
  | .b64Dec _ => fillB64Dec c.alpha64.toList c.pad64 x
  | .pack8To32 _ => .ok (packLanes 8 x)
  | .unpack32To8 _ => .ok (unpackLanes 8 x)
  | .pack16To32 _ => .ok (packLanes 16 x)
  | .unpack32To16 _ => .ok (unpackLanes 16 x)

/-- `bytes` stand at the front of a buffer, all of them written. -/
def holdsBytes (m : Memory) (bytes : List Byte) : Prop :=
  ∀ k (h : k < bytes.length), m.read? k = some bytes[k]

/-- One buffer is another with `bytes` written over its front. -/
def overwritten (after before : Memory) (bytes : List Byte) : Prop :=
  ∀ a, after.read? a = if h : a < bytes.length then some bytes[a] else before.read? a

/-- A state in which a command has just ended with this code and information word. -/
def endedWith (t : State) (code : StatusCode) (info : Nat) : Prop :=
  t.busy = false ∧ t.done = true ∧ t.code = code ∧ t.result = BitVec.ofNat 32 info

/-- In state s the command, in both modes, completes with an output of `len` elements whose bytes are `bytes`: the query
returns the length, the fill also writes the bytes if they fit, and says OUTPUT_TOO_SMALL if not. -/
def CompletesWith (cmd : Mode → Instr) (s : State) (len : Nat) (bytes : List Byte) : Prop :=
  (∃ t, exec (cmd .query) s = .next t ∧ endedWith t .ok len ∧ t.outBuf = s.outBuf) ∧
  (len ≤ capacity (cmd .fill).eOut s →
    ∃ t, exec (cmd .fill) s = .next t ∧ endedWith t .ok len ∧ overwritten t.outBuf s.outBuf bytes) ∧
  (capacity (cmd .fill).eOut s < len →
    ∃ t, exec (cmd .fill) s = .next t ∧ endedWith t .outputTooSmall len ∧ t.outBuf = s.outBuf)

/-- In state s the command ends with this error, and OUT_BUF stays as it was. -/
def FailsWith (i : Instr) (s : State) (code : StatusCode) (info : Nat) : Prop :=
  ∃ t, exec i s = .next t ∧ endedWith t code info ∧ t.outBuf = s.outBuf

/-- The latched input of a command with elements of e bytes is exactly `bytes`, and in range
(spec/40_command.md R78). -/
def InputIs (s : State) (e : Nat) (bytes : List Byte) : Prop :=
  s.latInLen.toNat * e = bytes.length ∧ bytes.length ≤ s.cfg.inSize ∧ holdsBytes s.inBuf bytes

/-- The characters of a digit sequence. -/
def textOf (alphabet : List Byte) (digits : List Nat) : List Byte := digits.map fun d => alphabet.getD d 0#8

/-- The bytes of a sequence of naturals below 256. -/
def bytesOf (xs : List Nat) : List Byte := xs.map (BitVec.ofNat 8)

/-- Two commands that differ in FILL alone: the query and the fill of one operation (spec/30_encoding.md R61). -/
def twoPhases (q f : Instr) : Prop :=
  q.unit = f.unit ∧ q.dir = f.dir ∧ q.mode = .query ∧ f.mode = .fill

/-- A row of the opcode map (spec/30_encoding.md R63): mnemonic, UNIT and DIR, the query word, which is also the match value
under the mask that leaves FILL out, the fill word, and the element sizes. -/
def IsTableRow (mnemonic : String) (cmd : Mode → Instr) (unit : Nat) (dir : Bool) (query fill : Word) (eIn eOut : Nat) : Prop :=
  encode (cmd .query) = query ∧ encode (cmd .fill) = fill ∧
  (∀ m, (cmd m).mnemonic = mnemonic ∧ (cmd m).unit = unit ∧ (cmd m).dir = dir ∧ (cmd m).eIn = eIn ∧ (cmd m).eOut = eOut) ∧
  ∀ v : Word, v &&& 0xFFFFFEFF#32 = query ↔ ∃ m, decode v = .ok (cmd m)

/-- The host's line at its position is `l`, and it is the host's turn: no reset, and no COMPLETE due. -/
def HostRuns (s : State) (l : HostLine) : Prop :=
  s.resetIn = false ∧ engineTurn s = false ∧ s.script[s.pos]? = some l

end Sys2Proof.Machine
end

