-- ==== Sys2Proof/Certificates/Slice0/Obligations.lean ====
section
/-! DEFINITION. The statements about the model, each from a rule of the spec. -/

open Sys2Proof Sys2Proof.Machine

/-! ### Reset -/

/-- spec/10_state.md R18, R39 and spec/70_reset_and_hazards.md R171: what the host sees right after reset. The default parameters are
R5's. The latch, the accumulator and the host's own fields, whose reset values are the model's choice, are left out. -/
def Obligations.ResetStateIsIdle : Prop :=
  State.reset.busy = false ∧ State.reset.ie = false ∧ State.reset.done = false ∧ State.reset.ovr = false ∧
  State.reset.code = .ok ∧ irq State.reset = false ∧
  (∀ a, State.reset.inBuf.read? a = none ∧ State.reset.outBuf.read? a = none) ∧
  busRead .w32 0x000 State.reset = .ok 0x42544B01#32 ∧
  (∀ off ∈ [0x004, 0x008, 0x00C, 0x010, 0x014, 0x018], busRead .w32 off State.reset = .ok 0#32) ∧
  busRead .w32 0x01C State.reset = .ok 4096#32 ∧ busRead .w32 0x020 State.reset = .ok 16384#32

/-- The invariant holds at reset. The accumulator's 0 there is the model's choice (log 5). -/
def Obligations.ResetMeetsInv : Prop := BlockInv State.reset

/-- spec/70_reset_and_hazards.md R170: whatever the block is doing, an asserted reset input puts every register at its reset value
and leaves every byte unwritten and IRQ low. That the parameters and the host stay and the input is then low is the model's
choice (log 8). -/
def Obligations.ResetInputRestoresBlock : Prop :=
  ∀ s : State, s.resetIn = true → ∃ t, step s = .next t ∧
    t.ie = false ∧ t.busy = false ∧ t.done = false ∧ t.ovr = false ∧ t.code = .ok ∧
    t.cmd = 0#32 ∧ t.inLen = 0#32 ∧ t.outCap = 0#32 ∧ t.result = 0#32 ∧
    (∀ a, t.inBuf.read? a = none ∧ t.outBuf.read? a = none) ∧ irq t = false ∧
    t.cfg = s.cfg ∧ t.script = s.script ∧ t.pos = s.pos ∧ t.temp = s.temp ∧ t.resetIn = false

/-! ### Command words -/

/-- spec/30_encoding.md R63, R65 to R67: words written out from the field table, and words it makes illegal. -/
def Obligations.SampleWordsDecode : Prop :=
  decode 0b00000000000000000000000000010000#32 = .ok (.p58Enc .query) ∧
  decode 0b00000000000000000000000100100001#32 = .ok (.p6Dec .fill) ∧
  decode 0b00000000000000000000000100110000#32 = .ok (.b64Enc .fill) ∧
  decode 0b00000000000000000000000001000001#32 = .ok (.unpack32To8 .query) ∧
  decode 0b00000000000000000000000101010001#32 = .ok (.unpack32To16 .fill) ∧
  decode 0b00000000000000000000000000000000#32 = .error .reservedUnit ∧
  decode 0b00000000000000000000000001100000#32 = .error .reservedUnit ∧
  decode 0b00000000000000000000000010010000#32 = .error .reservedBits ∧
  decode 0b10000000000000000000000000010000#32 = .error .reservedBits

/-- spec/30_encoding.md R63 and R65: each command has exactly one word, and that word decodes to it. -/
def Obligations.DecodeInvertsEncode : Prop :=
  ∀ (v : Word) (i : Instr), decode v = .ok i ↔ v = encode i

/-- spec/30_encoding.md R65: which words are legal, and where the operation and the mode come from. -/
def Obligations.DecodeReadsFields : Prop :=
  ∀ v : Word,
    ((∃ i, decode v = .ok i) ↔
      v &&& 0xFFFFFE8E#32 = 0#32 ∧ (v.extractLsb' 4 3).toNat ∈ [1, 2, 3, 4, 5]) ∧
    ∀ i, decode v = .ok i →
      i.unit = (v.extractLsb' 4 3).toNat ∧ i.dir = v.getLsbD 0 ∧ (i.mode = .fill ↔ v.getLsbD 8 = true)

/-- spec/30_encoding.md R63: the ten rows of the opcode map. -/
def Obligations.OpcodeMapRows : Prop :=
  IsTableRow "P58.ENC" .p58Enc 1 false 0x10#32 0x110#32 1 1 ∧ IsTableRow "P58.DEC" .p58Dec 1 true 0x11#32 0x111#32 1 1 ∧
  IsTableRow "P6.ENC" .p6Enc 2 false 0x20#32 0x120#32 1 1 ∧ IsTableRow "P6.DEC" .p6Dec 2 true 0x21#32 0x121#32 1 1 ∧
  IsTableRow "B64.ENC" .b64Enc 3 false 0x30#32 0x130#32 1 1 ∧ IsTableRow "B64.DEC" .b64Dec 3 true 0x31#32 0x131#32 1 1 ∧
  IsTableRow "PACK8_32" .pack8To32 4 false 0x40#32 0x140#32 1 4 ∧
  IsTableRow "UNPACK32_8" .unpack32To8 4 true 0x41#32 0x141#32 4 1 ∧
  IsTableRow "PACK16_32" .pack16To32 5 false 0x50#32 0x150#32 2 4 ∧
  IsTableRow "UNPACK32_16" .unpack32To16 5 true 0x51#32 0x151#32 4 2

/-! ### Steps -/

/-- spec/40_command.md R72 and R79: when COMPLETE is due the step is the meaning of the latched command and nothing
around it; otherwise the host moves. A word placed by `withFetchWord` is run by the next step. The model's choices here: `exec`
is COMPLETE (log 2), `engineTurn` says when it is due (log 3), a reset input acts before either (log 8), and `withFetchWord`
places a word (log 12). -/
def Obligations.StepRunsLatchedCommand : Prop :=
  (∀ (s : State) (i : Instr), s.resetIn = false → engineTurn s = true → decode s.latCmd = .ok i →
    step s = exec i s) ∧
  (∀ s : State, s.resetIn = false → engineTurn s = false → step s = hostStep s) ∧
  (∀ (s : State) (v : Word) (i : Instr), decode v = .ok i →
    step (s.withFetchWord 32 v.toNat) = exec i (s.withFetchWord 32 v.toNat))

/-- spec/30_encoding.md R70: what each kind of host line does, when it is the host's turn. The model's choices here: labels are
numbers found from the front of the script and a label line takes a step (log 9), a narrow read zero-extends (log 19), `tick`
counts the step against a running command's delay (log 3), and a reset input acts first (log 8). -/
def Obligations.HostLinesRun : Prop :=
  ∀ s : State,
    (∀ w off d u, HostRuns s (.write w off d) → busWrite w off (dataOf d s) (tick s) = .next u →
      step s = .next { u with pos := s.pos + 1 }) ∧
    (∀ w off v, HostRuns s (.read w off) → busRead w off s = .ok v →
      ∃ t, step s = .next t ∧ t.temp = v ∧ t.pos = s.pos + 1) ∧
    (∀ k l j, HostRuns s (.bit k l) → labelIndex s.script l = some j →
      step s = .next { tick s with pos := if s.temp.getLsbD k.val then j else s.pos + 1 }) ∧
    (∀ l j, HostRuns s (.bnz l) → labelIndex s.script l = some j →
      step s = .next { tick s with pos := if s.temp = 0#32 then s.pos + 1 else j }) ∧
    (∀ l j, HostRuns s (.jmp l) → labelIndex s.script l = some j →
      step s = .next { tick s with pos := j }) ∧
    (∀ l, HostRuns s (.label l) → step s = .next { tick s with pos := s.pos + 1 })

/-- spec/10_state.md R23 and spec/40_command.md R77, R79: a host line that writes a legal word to CMD starts the command, and
with a supplied delay of 0 the step after it is that command's COMPLETE over the values the registers had. The model's choices
here: `exec` is COMPLETE (log 2) and the supplied delay (log 3). -/
def Obligations.IssueThenComplete : Prop :=
  ∀ (s : State) (v : Word) (i : Instr) (ds : List Nat),
    HostRuns s (.write .w32 0x00C (.imm v)) → s.busy = false → decode v = .ok i → s.delays = 0 :: ds →
    ∃ t, step s = .next t ∧ t.busy = true ∧ t.latInLen = s.inLen ∧ t.latOutCap = s.outCap ∧ t.inBuf = s.inBuf ∧
      t.pos = s.pos + 1 ∧ step t = exec i t

/-- spec/70_reset_and_hazards.md R180: at HALT with BUSY = 0 the run has ended, and its end state is what the host would read of
the registers, both buffers with their marks, IRQ and t; with BUSY = 1 it has none. That a further step changes nothing is the
model's choice (log 20). -/
def Obligations.EndedRunStays : Prop :=
  (∀ s : State, s.resetIn = false → runEnded s = true → step s = .next s ∧
    ∃ e, endState s = some e ∧
      busRead .w32 0x004 s = .ok e.ctrl ∧ busRead .w32 0x008 s = .ok e.status ∧ busRead .w32 0x00C s = .ok e.cmd ∧
      busRead .w32 0x010 s = .ok e.inLen ∧ busRead .w32 0x014 s = .ok e.outCap ∧
      busRead .w32 0x018 s = .ok e.result ∧ e.inBuf = s.inBuf ∧ e.outBuf = s.outBuf ∧
      e.irq = (s.ie && s.done) ∧ e.temp = s.temp) ∧
  (∀ s : State, (runEnded s = true ↔ s.script[s.pos]? = some .halt ∧ s.busy = false) ∧
    (s.busy = true → endState s = none))

/-! ### Issuing a command -/

/-- spec/40_command.md R75 and R77, spec/10_state.md R23: an accepted write of a legal word to CMD, which then reads it back. -/
def Obligations.LegalCmdWriteStarts : Prop :=
  ∀ (s : State) (v : Word), s.busy = false → legal v = true → ∃ t, busWrite .w32 0x00C v s = .next t ∧
    t.latCmd = v ∧ t.latInLen = s.inLen ∧ t.latOutCap = s.outCap ∧ t.busy = true ∧
    t.done = false ∧ t.code = .ok ∧ t.result = 0#32 ∧ t.cmd = v ∧ busRead .w32 0x00C t = .ok v ∧
    t.cfg = s.cfg ∧ t.ie = s.ie ∧ t.ovr = s.ovr ∧ t.inLen = s.inLen ∧ t.outCap = s.outCap ∧
    t.inBuf = s.inBuf ∧ t.outBuf = s.outBuf ∧ t.acc = s.acc

/-- spec/40_command.md R76, spec/30_encoding.md R66: an accepted write of an illegal word ends in the same step. CMD reads it
back, reserved bits included (spec/10_state.md R23). -/
def Obligations.IllegalCmdWriteEnds : Prop :=
  ∀ (s : State) (v : Word), s.busy = false → legal v = false → ∃ t, busWrite .w32 0x00C v s = .next t ∧
    t.code = .illegalCommand ∧ t.result = 0#32 ∧ t.done = true ∧ t.busy = false ∧ irq t = s.ie ∧ t.cmd = v ∧
    busRead .w32 0x00C t = .ok v ∧
    t = { s with code := t.code, result := t.result, done := t.done, cmd := t.cmd }

/-- spec/10_state.md R29: while BUSY = 1 a write to CMD, IN_LEN, OUT_CAP or a buffer byte is dropped and sets OVR, and a write
to any other register does what its own rule says. -/
def Obligations.BusyLockDropsWrites : Prop :=
  ∀ (s : State) (w : Width) (v : Word), s.busy = true →
    (∀ off ∈ [0x00C, 0x010, 0x014], busWrite .w32 off v s = .next { s with ovr := true }) ∧
    (∀ o < 0x10000, o % w.bytes = 0 → o + w.bytes ≤ s.cfg.inSize →
      busWrite w (0x10000 + o) v s = .next { s with ovr := true }) ∧
    (∀ o < 0x10000, o % w.bytes = 0 → o + w.bytes ≤ s.cfg.outSize →
      busWrite w (0x20000 + o) v s = .next { s with ovr := true }) ∧
    busWrite .w32 0x004 v s = .next { s with ie := v.getLsbD 0 } ∧
    busWrite .w32 0x008 v s =
      .next { s with done := s.done && !v.getLsbD 1, ovr := s.ovr && !v.getLsbD 2 } ∧
    (∀ off < 0x10000, off % 4 = 0 → off ∉ [0x004, 0x008, 0x00C, 0x010, 0x014] → busWrite .w32 off v s = .next s)

/-! ### Registers -/

/-- spec/10_state.md R22: writing 1 clears DONE and OVR, busy or not; every other bit is ignored. -/
def Obligations.StatusWriteClearsOnes : Prop :=
  ∀ (s : State) (v : Word), ∃ t, busWrite .w32 0x008 v s = .next t ∧
    (v.getLsbD 1 = true → t.done = false) ∧ (v.getLsbD 1 = false → t.done = s.done) ∧
    (v.getLsbD 2 = true → t.ovr = false) ∧ (v.getLsbD 2 = false → t.ovr = s.ovr) ∧
    t = { s with done := t.done, ovr := t.ovr } ∧
    (BlockInv s → s.busy = true → t.done = s.done)

/-- spec/10_state.md R20: a CTRL write sets IE from bit 0, busy or not; CTRL reads IE and zeros; IE changes nothing a command
computes. -/
def Obligations.CtrlWriteSetsEnable : Prop :=
  (∀ (s : State) (v : Word), busWrite .w32 0x004 v s = .next { s with ie := v.getLsbD 0 }) ∧
  (∀ s : State, busRead .w32 0x004 s = .ok (if s.ie then 1#32 else 0#32)) ∧
  (∀ (i : Instr) (s t : State) (b : Bool), exec i s = .next t →
    exec i { s with ie := b } = .next { t with ie := b })

/-- spec/10_state.md R21, R23 to R25, spec/60_exceptions.md R150: what a host read of STATUS gives, bit by bit, with the numbers of the
five codes the block produces, and that CMD, IN_LEN and OUT_CAP read as they stand. -/
def Obligations.RegisterReads : Prop :=
  ∀ s : State,
    (∃ v, busRead .w32 0x008 s = .ok v ∧
      v.getLsbD 0 = s.busy ∧ v.getLsbD 1 = s.done ∧ v.getLsbD 2 = s.ovr ∧
      (∀ k, 3 ≤ k → k < 8 ∨ 12 ≤ k → v.getLsbD k = false) ∧
      (s.code = .ok → v.extractLsb' 8 4 = 0#4) ∧
      (s.code = .invalidSymbol → v.extractLsb' 8 4 = 1#4) ∧
      (s.code = .outputTooSmall → v.extractLsb' 8 4 = 4#4) ∧
      (s.code = .invalidLength → v.extractLsb' 8 4 = 5#4) ∧
      (s.code = .illegalCommand → v.extractLsb' 8 4 = 6#4)) ∧
    busRead .w32 0x00C s = .ok s.cmd ∧ busRead .w32 0x010 s = .ok s.inLen ∧ busRead .w32 0x014 s = .ok s.outCap

/-- spec/10_state.md R24 and R25: with BUSY = 0 every 32-bit value is stored and read back. -/
def Obligations.LengthRegistersStore : Prop :=
  ∀ (s : State) (v : Word), s.busy = false →
    (∃ t, busWrite .w32 0x010 v s = .next t ∧ t = { s with inLen := v } ∧ busRead .w32 0x010 t = .ok v) ∧
    (∃ t, busWrite .w32 0x014 v s = .next t ∧ t = { s with outCap := v } ∧ busRead .w32 0x014 t = .ok v)

/-- spec/10_state.md R19, R26 to R28: read-only registers and reserved offsets ignore writes; what they read. -/
def Obligations.ReadOnlyAndReserved : Prop :=
  (∀ (s : State) (v : Word) (off : Nat), off < 0x10000 → off % 4 = 0 →
    off ∉ [0x004, 0x008, 0x00C, 0x010, 0x014] → busWrite .w32 off v s = .next s) ∧
  (∀ s : State, busRead .w32 0x000 s = .ok s.cfg.idValue ∧ busRead .w32 0x018 s = .ok s.result ∧
    busRead .w32 0x01C s = .ok (BitVec.ofNat 32 s.cfg.inSize) ∧
    busRead .w32 0x020 s = .ok (BitVec.ofNat 32 s.cfg.outSize)) ∧
  (∀ (s : State) (off : Nat), 0x024 ≤ off → off < 0x10000 → off % 4 = 0 → busRead .w32 off s = .ok 0#32) ∧
  defaultConfig.idValue = 0x42544B01#32

/-- spec/20_memory.md R42: a narrow or misaligned access in the register space is not performed. -/
def Obligations.NarrowRegisterAccess : Prop :=
  ∀ (s : State) (w : Width) (off : Nat) (v : Word), off < 0x10000 → (w ≠ .w32 ∨ off % 4 ≠ 0) →
    busRead w off s = .ok 0#32 ∧ afterRead w off s = s ∧ busWrite w off v s = .next s

/-! ### Buffer windows -/

/-- spec/20_memory.md R43, the writes: misaligned and unbacked ones are not performed, locked ones set OVR, and a performed one
stores the low bytes of the data, least significant first, and marks them. -/
def Obligations.BufferWindowWrites : Prop :=
  ∀ (s : State) (w : Width) (o : Nat) (v : Word), o < 0x10000 →
    (o % w.bytes ≠ 0 ∨ s.cfg.inSize < o + w.bytes → busWrite w (0x10000 + o) v s = .next s) ∧
    (o % w.bytes = 0 → o + w.bytes ≤ s.cfg.inSize → s.busy = true →
      busWrite w (0x10000 + o) v s = .next { s with ovr := true }) ∧
    (o % w.bytes = 0 → o + w.bytes ≤ s.cfg.inSize → s.busy = false →
      ∃ t, busWrite w (0x10000 + o) v s = .next t ∧ t = { s with inBuf := t.inBuf } ∧
        ∀ a, t.inBuf.read? a =
          if o ≤ a ∧ a < o + w.bytes then some (BitVec.ofNat 8 (v.toNat / 256 ^ (a - o))) else s.inBuf.read? a) ∧
    (o % w.bytes ≠ 0 ∨ s.cfg.outSize < o + w.bytes → busWrite w (0x20000 + o) v s = .next s) ∧
    (o % w.bytes = 0 → o + w.bytes ≤ s.cfg.outSize → s.busy = true →
      busWrite w (0x20000 + o) v s = .next { s with ovr := true }) ∧
    (o % w.bytes = 0 → o + w.bytes ≤ s.cfg.outSize → s.busy = false →
      ∃ t, busWrite w (0x20000 + o) v s = .next t ∧ t = { s with outBuf := t.outBuf } ∧
        ∀ a, t.outBuf.read? a =
          if o ≤ a ∧ a < o + w.bytes then some (BitVec.ofNat 8 (v.toNat / 256 ^ (a - o))) else s.outBuf.read? a)

/-- spec/20_memory.md R43, R45 and R48, the reads: not performed reads give 0, a performed one gives the bytes little-endian or
UNINIT_READ, and OUT_BUF while BUSY = 1 gives some value that fits the width, with no fault. -/
def Obligations.BufferWindowReads : Prop :=
  ∀ (s : State) (w : Width) (o : Nat) (bytes : List Byte), o < 0x10000 → bytes.length = w.bytes →
    (o % w.bytes ≠ 0 ∨ s.cfg.inSize < o + w.bytes → busRead w (0x10000 + o) s = .ok 0#32) ∧
    (o % w.bytes = 0 → o + w.bytes ≤ s.cfg.inSize →
      (∀ k (h : k < bytes.length), s.inBuf.read? (o + k) = some bytes[k]) →
      busRead w (0x10000 + o) s = .ok (BitVec.ofNat 32 (Nat.ofDigits 256 (bytes.map BitVec.toNat)))) ∧
    (o % w.bytes ≠ 0 ∨ s.cfg.outSize < o + w.bytes → busRead w (0x20000 + o) s = .ok 0#32) ∧
    (o % w.bytes = 0 → o + w.bytes ≤ s.cfg.outSize → s.busy = true →
      ∃ v, busRead w (0x20000 + o) s = .ok v ∧ v.toNat < 256 ^ w.bytes) ∧
    (o % w.bytes = 0 → o + w.bytes ≤ s.cfg.outSize → s.busy = false →
      (∀ k (h : k < bytes.length), s.outBuf.read? (o + k) = some bytes[k]) →
      busRead w (0x20000 + o) s = .ok (BitVec.ofNat 32 (Nat.ofDigits 256 (bytes.map BitVec.toNat))))

/-- spec/60_exceptions.md R159: UNINIT_READ is raised by a host read of a byte no write has set, and by a command exactly when its
input, in range, holds one; a command has no other fault and no refusal. -/
def Obligations.UnwrittenBytesFault : Prop :=
  (∀ (s : State) (w : Width) (o : Nat), o < 0x10000 → o % w.bytes = 0 →
    (o + w.bytes ≤ s.cfg.inSize → (∃ k < w.bytes, s.inBuf.read? (o + k) = none) →
      busRead w (0x10000 + o) s = .error .uninitRead) ∧
    (o + w.bytes ≤ s.cfg.outSize → s.busy = false → (∃ k < w.bytes, s.outBuf.read? (o + k) = none) →
      busRead w (0x20000 + o) s = .error .uninitRead)) ∧
  (∀ (i : Instr) (s : State) (f : Fault), exec i s = .fault f ↔
    f = .uninitRead ∧ s.latInLen.toNat * i.eIn ≤ s.cfg.inSize ∧
      ∃ a < s.latInLen.toNat * i.eIn, s.inBuf.read? a = none) ∧
  (∀ (i : Instr) (s : State) (r : Refusal), exec i s ≠ .refused r)

/-- spec/20_memory.md R44: a host read changes nothing but the host's position and temporary (and the model's own counters,
logs 3 and 4), and reading again gives the same value, except in OUT_BUF while BUSY = 1. -/
def Obligations.HostReadsChangeNothing : Prop :=
  ∀ (s t : State) (w : Width) (off : Nat), HostRuns s (.read w off) → step s = .next t →
    t = { s with pos := s.pos + 1, temp := t.temp, wait := t.wait, draws := t.draws } ∧
    ∀ w' off', readIsFree w' off' s = false → busRead w' off' t = busRead w' off' s

/-- spec/20_memory.md R48: bytes written one by one read back in the wider widths, little-endian. -/
def Obligations.ByteWritesReadBackWide : Prop :=
  ∀ (s : State) (o : Nat) (b0 b1 b2 b3 : Byte), s.busy = false → o % 4 = 0 → o + 4 ≤ s.cfg.inSize → o + 4 ≤ 0x10000 →
    ∃ t1 t2 t3 t4,
      busWrite .w8 (0x10000 + o) (b0.zeroExtend 32) s = .next t1 ∧
      busWrite .w8 (0x10000 + (o + 1)) (b1.zeroExtend 32) t1 = .next t2 ∧
      busWrite .w8 (0x10000 + (o + 2)) (b2.zeroExtend 32) t2 = .next t3 ∧
      busWrite .w8 (0x10000 + (o + 3)) (b3.zeroExtend 32) t3 = .next t4 ∧
      busRead .w32 (0x10000 + o) t4 = .ok (b3 ++ b2 ++ b1 ++ b0) ∧
      busRead .w16 (0x10000 + (o + 2)) t4 = .ok ((b3 ++ b2).zeroExtend 32) ∧
      busRead .w8 (0x10000 + (o + 1)) t4 = .ok (b1.zeroExtend 32)

/-! ### The frame of every command -/

/-- spec/40_command.md R78: out of range, in exact arithmetic, is INVALID_LENGTH with the latched length, whatever the input bytes,
the mode and the capacity. -/
def Obligations.InputOutOfRange : Prop :=
  ∀ (i : Instr) (s : State), s.cfg.inSize < s.latInLen.toNat * i.eIn →
    FailsWith i s .invalidLength s.latInLen.toNat

/-- spec/40_command.md R80, R84, R85, spec/10_state.md R30, R31, R34, spec/60_exceptions.md R156, spec/70_reset_and_hazards.md R177: what a
command that has a next state changes and what it leaves. OUT_BUF is stored to from offset 0, RESULT elements of e_out bytes, and only
by a fill that ends OK. That the latch keeps its values is the model's choice (log 23). -/
def Obligations.CommandFrame : Prop :=
  ∀ (i : Instr) (s t : State), exec i s = .next t →
    t.busy = false ∧ t.done = true ∧
    t.cfg = s.cfg ∧ t.ie = s.ie ∧ t.ovr = s.ovr ∧ t.cmd = s.cmd ∧ t.inLen = s.inLen ∧ t.outCap = s.outCap ∧
    t.latCmd = s.latCmd ∧ t.latInLen = s.latInLen ∧ t.latOutCap = s.latOutCap ∧ t.inBuf = s.inBuf ∧
    t.resetIn = s.resetIn ∧ t.script = s.script ∧ t.pos = s.pos ∧ t.temp = s.temp ∧ t.delays = s.delays ∧
    (i.positional = false → t.acc = s.acc ∧ t.draws = s.draws) ∧
    (i.mode = .query ∨ t.code ≠ .ok → t.outBuf = s.outBuf) ∧
    (i.mode = .fill → t.code = .ok →
      t.result.toNat ≤ s.latOutCap.toNat ∧ t.result.toNat * i.eOut ≤ s.cfg.outSize ∧
      (∀ a < t.result.toNat * i.eOut, ∃ b, t.outBuf.read? a = some b) ∧
      (∀ a, t.result.toNat * i.eOut ≤ a → t.outBuf.read? a = s.outBuf.read? a))

/-- spec/60_exceptions.md R151: the codes each command can end with. -/
def Obligations.CodesOfEachCommand : Prop :=
  ∀ (i : Instr) (s t : State), exec i s = .next t →
    t.code ∈ [.ok, .invalidSymbol, .outputTooSmall, .invalidLength] ∧
    (t.code = .invalidSymbol → (∃ m, i = .p58Dec m) ∨ (∃ m, i = .p6Dec m) ∨ i = .b64Dec .fill) ∧
    (t.code = .outputTooSmall → i.mode = .fill) ∧
    (t.code = .invalidLength → t.result = s.latInLen ∧
      (s.cfg.inSize < s.latInLen.toNat * i.eIn ∨ ((∃ m, i = .b64Dec m) ∧ s.latInLen.toNat % 4 ≠ 0)))

/-- spec/40_command.md R73: where the fill function answers a sequence, the query function answers its length. -/
def Obligations.QueryAnswersFillLength : Prop :=
  ∀ (c : Config) (q f : Instr) (x elems : List Nat), twoPhases q f →
    commandFill c f x = .ok elems → commandQuery c q x = .ok elems.length

/-- spec/40_command.md R81, R82 and spec/60_exceptions.md R152: over the same input the query returns the length the fill reports, and a
query that returns L promises the fill L elements: it ends OK where L is within the capacity and OUTPUT_TOO_SMALL where it is
not. The one exception is B64.DEC, whose fill may end INVALID_SYMBOL instead. That L itself is below 2^32, so that RESULT is L,
takes legal parameters. -/
def Obligations.QueryThenFill : Prop :=
  ∀ (q f : Instr) (s : State), twoPhases q f →
    (∀ t, exec f s = .next t → t.code = .ok ∨ t.code = .outputTooSmall →
      ∃ u, exec q s = .next u ∧ u.code = .ok ∧ u.result = t.result) ∧
    (∀ u, exec q s = .next u → u.code = .ok → ∃ t, exec f s = .next t ∧
      ((f = .b64Dec .fill ∧ t.code = .invalidSymbol) ∨
        (t.result = u.result ∧ (t.code = .ok ∨ t.code = .outputTooSmall) ∧
          (s.cfg.Wf → u.result.toNat ≤ capacity f.eOut s → t.code = .ok) ∧
          (s.cfg.Wf → capacity f.eOut s < u.result.toNat → t.code = .outputTooSmall))))

/-- spec/40_command.md R84: CODE, RESULT and the output bytes depend on the latched lengths, the input bytes and the
configuration alone, and OUT_BUF as a whole on these and what it held; no earlier command, register, accumulator content or
free value shows in them. -/
def Obligations.OutcomeDependsOnInputOnly : Prop :=
  ∀ (i : Instr) (s s' : State), s.cfg = s'.cfg → s.latInLen = s'.latInLen → s.latOutCap = s'.latOutCap →
    (∀ a < s.latInLen.toNat * i.eIn, s.inBuf.read? a = s'.inBuf.read? a) →
    (∀ t, exec i s = .next t → ∃ t', exec i s' = .next t' ∧ t'.code = t.code ∧ t'.result = t.result ∧
      (i.mode = .fill → t.code = .ok → ∀ a < t.result.toNat * i.eOut, t'.outBuf.read? a = t.outBuf.read? a) ∧
      ((∀ a, s.outBuf.read? a = s'.outBuf.read? a) → ∀ a, t'.outBuf.read? a = t.outBuf.read? a)) ∧
    (∀ r, exec i s = .fault r → exec i s' = .fault r)

/-- spec/60_exceptions.md R160 and spec/10_state.md R35: IRQ is IE AND DONE; it rises at every ending of a command if IE = 1, falls with a
write of 1 to DONE, with a new command and with reset, and follows IE while DONE = 1. -/
def Obligations.InterruptLevel : Prop :=
  (∀ s : State, irq s = true ↔ s.ie = true ∧ s.done = true) ∧
  (∀ (i : Instr) (s t : State), exec i s = .next t → irq t = s.ie) ∧
  (∀ (s : State) (v : Word), v.getLsbD 1 = true → ∃ t, busWrite .w32 0x008 v s = .next t ∧ irq t = false) ∧
  (∀ (s : State) (v : Word), s.busy = false → legal v = true →
    ∃ t, busWrite .w32 0x00C v s = .next t ∧ irq t = false) ∧
  (∀ (s : State) (v : Word), s.done = true →
    ∃ t, busWrite .w32 0x004 v s = .next t ∧ t.done = true ∧ irq t = v.getLsbD 0) ∧
  (∀ s : State, s.resetIn = true → ∃ t, step s = .next t ∧ irq t = false)

/-! ### The commands -/

/-- spec/41_positional.md R89: P58.ENC of the payload p. -/
def Obligations.P58EncodesPayload : Prop :=
  ∀ (s : State) (p : List Byte), InputIs s 1 p →
    let n := Nat.ofDigits 256 (p.reverse.map BitVec.toNat)
    let out := List.replicate (p.takeWhile (· = 0#8)).length (s.cfg.alpha58.toList.getD 0 0#8)
      ++ textOf s.cfg.alpha58.toList (Nat.digits 58 n).reverse
    CompletesWith .p58Enc s out.length out

/-- spec/41_positional.md R90: P58.DEC of the text whose digits are ds. -/
def Obligations.P58DecodesText : Prop :=
  ∀ (s : State) (ds : List Nat), s.cfg.AlphabetsOk → (∀ d ∈ ds, d < 58) →
    InputIs s 1 (textOf s.cfg.alpha58.toList ds) →
    let out := List.replicate (ds.takeWhile (· = 0)).length 0#8
      ++ bytesOf (Nat.digits 256 (Nat.ofDigits 58 ds.reverse)).reverse
    CompletesWith .p58Dec s out.length out

/-- spec/41_positional.md R91: P6.ENC of the payload p. -/
def Obligations.P6EncodesPayload : Prop :=
  ∀ (s : State) (p : List Byte), InputIs s 1 p →
    let n := Nat.ofDigits 256 (p.reverse.map BitVec.toNat)
    let out := textOf s.cfg.alpha6.toList (Nat.digits 6 n).reverse
    CompletesWith .p6Enc s out.length out

/-- spec/41_positional.md R92: P6.DEC of the text whose digits are ds. -/
def Obligations.P6DecodesText : Prop :=
  ∀ (s : State) (ds : List Nat), s.cfg.AlphabetsOk → (∀ d ∈ ds, d < 6) →
    InputIs s 1 (textOf s.cfg.alpha6.toList ds) →
    let out := bytesOf (Nat.digits 256 (Nat.ofDigits 6 ds.reverse)).reverse
    CompletesWith .p6Dec s out.length out

/-- spec/41_positional.md R90, R92, spec/42_base64.md R102, spec/60_exceptions.md R153: the lowest index that holds no symbol is reported,
before any question of capacity; by B64.DEC in fill mode, and before its padding. -/
def Obligations.FirstBadSymbolReported : Prop :=
  ∀ (s : State) (text : List Byte) (j : Nat) (h : j < text.length), InputIs s 1 text →
    (text[j] ∉ s.cfg.alpha58.toList → (∀ k (_ : k < j), text[k] ∈ s.cfg.alpha58.toList) →
      ∀ m, FailsWith (.p58Dec m) s .invalidSymbol j) ∧
    (text[j] ∉ s.cfg.alpha6.toList → (∀ k (_ : k < j), text[k] ∈ s.cfg.alpha6.toList) →
      ∀ m, FailsWith (.p6Dec m) s .invalidSymbol j) ∧
    (text[j] ∉ s.cfg.alpha64.toList → (∀ k (_ : k < j), text[k] ∈ s.cfg.alpha64.toList) →
      text.length % 4 = 0 → j < text.length - padCount s.cfg.pad64 (text.map BitVec.toNat) →
      FailsWith (.b64Dec .fill) s .invalidSymbol j)

/-- spec/42_base64.md R101: B64.ENC of the payload p, symbol by symbol: symbol j of group g is a table symbol where j is at most the
number of payload bytes left for the group, and the padding byte where not. -/
def Obligations.B64EncodesPayload : Prop :=
  ∀ (s : State) (p : List Byte), InputIs s 1 p →
    let byte := fun k => (p.getD k 0#8).toNat
    let out := (List.range (4 * ((p.length + 2) / 3))).map fun k =>
      let g := k / 4
      let v := byte (3 * g) * 2 ^ 16 + byte (3 * g + 1) * 2 ^ 8 + byte (3 * g + 2)
      if k % 4 ≤ p.length - 3 * g then s.cfg.alpha64.toList.getD (v / 64 ^ (3 - k % 4) % 64) 0#8 else s.cfg.pad64
    CompletesWith .b64Enc s out.length out

/-- spec/42_base64.md R102: B64.DEC of a text of symbols with indices c and then `pads` padding bytes, in groups of four. -/
def Obligations.B64DecodesText : Prop :=
  ∀ (s : State) (c : List Nat) (pads : Nat), s.cfg.AlphabetsOk → (∀ d ∈ c, d < 64) → pads ≤ 2 →
    (c.length + pads) % 4 = 0 →
    InputIs s 1 (textOf s.cfg.alpha64.toList c ++ List.replicate pads s.cfg.pad64) →
    let out := (List.range (3 * ((c.length + pads) / 4) - pads)).map fun k =>
      let g := k / 3
      let v := c.getD (4 * g) 0 * 64 ^ 3 + c.getD (4 * g + 1) 0 * 64 ^ 2 + c.getD (4 * g + 2) 0 * 64
        + c.getD (4 * g + 3) 0
      BitVec.ofNat 8 (v / 256 ^ (2 - k % 3))
    CompletesWith .b64Dec s out.length out

/-- spec/42_base64.md R102: a length that is no multiple of 4 is INVALID_LENGTH in both modes, and any other query answers from the
length and the padding at the end alone, whatever the symbols. -/
def Obligations.B64DecodeQueryLength : Prop :=
  ∀ (s : State) (text : List Byte), InputIs s 1 text →
    (text.length % 4 ≠ 0 → ∀ m, FailsWith (.b64Dec m) s .invalidLength text.length) ∧
    (text.length % 4 = 0 →
      ∃ t, exec (.b64Dec .query) s = .next t ∧ t.outBuf = s.outBuf ∧
        endedWith t .ok (3 * (text.length / 4) -
          (if text.getLast? = some s.cfg.pad64 then
            (if text.dropLast.getLast? = some s.cfg.pad64 then 2 else 1) else 0)))

/-- spec/43_wordwidth.md R111 and R117: PACK8_32 writes the input bytes, then zeros up to a whole lane. -/
def Obligations.Pack8WritesLanes : Prop :=
  ∀ (s : State) (p : List Byte), InputIs s 1 p →
    let len := (p.length + 3) / 4
    CompletesWith .pack8To32 s len (p ++ List.replicate (4 * len - p.length) 0#8)

/-- spec/43_wordwidth.md R113 and R117: PACK16_32 writes the input bytes, then zeros up to a whole lane. -/
def Obligations.Pack16WritesLanes : Prop :=
  ∀ (s : State) (p : List Byte), InputIs s 2 p →
    let len := (s.latInLen.toNat + 1) / 2
    CompletesWith .pack16To32 s len (p ++ List.replicate (4 * len - p.length) 0#8)

/-- spec/43_wordwidth.md R112 and R117: UNPACK32_8 writes the input bytes without the zero bytes at the end of the last lane, `len` being
the bytes kept. -/
def Obligations.Unpack8TrimsTopLane : Prop :=
  ∀ (s : State) (p : List Byte) (len : Nat), InputIs s 4 p →
    len ≤ p.length → p.length - 4 ≤ len → (∀ k (_ : k < p.length), len ≤ k → p[k] = 0#8) →
    (p.length - 4 < len → p.getD (len - 1) 0#8 ≠ 0#8) →
    CompletesWith .unpack32To8 s len (p.take len)

/-- spec/43_wordwidth.md R114 and R117: UNPACK32_16 does so by 16-bit sub-lanes, `len` being the 16-bit lanes kept. -/
def Obligations.Unpack16TrimsTopLane : Prop :=
  ∀ (s : State) (p : List Byte) (len : Nat), InputIs s 4 p →
    2 * len ≤ p.length → p.length - 4 ≤ 2 * len → (∀ k (_ : k < p.length), 2 * len ≤ k → p[k] = 0#8) →
    (p.length - 4 < 2 * len → p.getD (2 * len - 1) 0#8 ≠ 0#8 ∨ p.getD (2 * len - 2) 0#8 ≠ 0#8) →
    CompletesWith .unpack32To16 s len (p.take (2 * len))

/-! ### Laws of the codecs -/

/-- spec/41_positional.md R96: base 58 decodes what it encodes, for every payload; the zero-symbols at the front are as many as the
zero bytes, and the rest of the payload is the minimal bytes of its value. -/
def Obligations.RoundTripBase58 : Prop :=
  ∀ (c : Config) (p : List Nat), c.AlphabetsOk → (∀ b ∈ p, b < 256) →
    ∃ text, fillP58Enc c.alpha58.toList p = .ok text ∧ fillP58Dec c.alpha58.toList text = .ok p ∧
      lead text (charOf c.alpha58.toList 0) = lead p 0 ∧ minBeBytes (beValue p) = p.drop (lead p 0)

/-- spec/41_positional.md R97: base 6 loses the zero bytes at the front and nothing else, so it is exact for the payloads
that are empty or begin with a non-zero byte, and for no others. -/
def Obligations.RoundTripBase6 : Prop :=
  ∀ (c : Config) (p : List Nat), c.AlphabetsOk → (∀ b ∈ p, b < 256) →
    ∃ text, fillP6Enc c.alpha6.toList p = .ok text ∧
      fillP6Dec c.alpha6.toList text = .ok (p.dropWhile (· == 0)) ∧
      (fillP6Dec c.alpha6.toList text = .ok p ↔ p = [] ∨ p.head? ≠ some 0)

/-- spec/42_base64.md R104: base 64 decodes what it encodes, for every payload; the text's length, its padding count, and that every
other byte of it is a symbol. -/
def Obligations.RoundTripBase64 : Prop :=
  ∀ (c : Config) (p : List Nat), c.AlphabetsOk → (∀ b ∈ p, b < 256) →
    ∃ text, fillB64Enc c.alpha64.toList c.pad64 p = .ok text ∧
      fillB64Dec c.alpha64.toList c.pad64 text = .ok p ∧
      text.length = 4 * ((p.length + 2) / 3) ∧ padCount c.pad64 text = (3 - p.length % 3) % 3 ∧
      ∀ v ∈ text, v ≠ c.pad64.toNat → BitVec.ofNat 8 v ∈ c.alpha64.toList ∧ v < 256

/-- spec/42_base64.md R103: an encoding is a text with no padding byte, then two of them, one or none, as n mod 3 is 1, 2 or 0. -/
def Obligations.PaddingByLength : Prop :=
  ∀ (c : Config) (p : List Nat), c.AlphabetsOk →
    ∃ text, fillB64Enc c.alpha64.toList c.pad64 p =
        .ok (text ++ List.replicate ((3 - p.length % 3) % 3) c.pad64.toNat) ∧
      c.pad64.toNat ∉ text

/-- spec/43_wordwidth.md R115: packing and unpacking keep the numeric value of the lane array. -/
def Obligations.ConverterKeepsValue : Prop :=
  ∀ (wn : Nat) (x : List Nat), wn = 8 ∨ wn = 16 →
    Nat.ofDigits (2 ^ 32) (packLanes wn x) = Nat.ofDigits (2 ^ wn) x ∧
    ((∀ w ∈ x, w < 2 ^ 32) → Nat.ofDigits (2 ^ wn) (unpackLanes wn x) = Nat.ofDigits (2 ^ 32) x)

/-- spec/43_wordwidth.md R116: unpack after pack gives X back exactly when X is empty or its last lane is not zero, and otherwise X
without the zero lanes at the end of its final group of r, `keep` lanes; pack after unpack likewise, but for the last wide lane. -/
def Obligations.ConverterRoundTrips : Prop :=
  ∀ (wn : Nat), wn = 8 ∨ wn = 16 →
    (∀ x : List Nat, (∀ v ∈ x, v < 2 ^ wn) →
      (unpackLanes wn (packLanes wn x) = x ↔ x = [] ∨ x.getLast? ≠ some 0) ∧
      (∀ keep, keep ≤ x.length → (x.length - 1) / (32 / wn) * (32 / wn) ≤ keep →
        (∀ k (_ : k < x.length), keep ≤ k → x[k] = 0) →
        ((x.length - 1) / (32 / wn) * (32 / wn) < keep → x.getD (keep - 1) 0 ≠ 0) →
        unpackLanes wn (packLanes wn x) = x.take keep)) ∧
    (∀ w : List Nat, (∀ v ∈ w, v < 2 ^ 32) →
      (packLanes wn (unpackLanes wn w) = w ↔ w = [] ∨ w.getLast? ≠ some 0) ∧
      (w.getLast? = some 0 → packLanes wn (unpackLanes wn w) = w.dropLast))

/-- spec/41_positional.md R95: how long the digit strings and the decoded payloads are. `6 ^ (L - 1) < 256 ^ n` is
L <= ceil(8n / log2 6) for L not 0. A decode's output is never longer than its input. -/
def Obligations.PositionalLengths : Prop :=
  (∀ b n : Nat, b = 58 ∨ b = 6 → (digitsOf b n).length = if n = 0 then 0 else Nat.log b n + 1) ∧
  (∀ (c : Config) (p : List Nat), (∀ v ∈ p, v < 256) →
    (∃ text, fillP58Enc c.alpha58.toList p = .ok text ∧
      text.length = lead p 0 + (digitsOf 58 (beValue p)).length) ∧
    (∃ text, fillP6Enc c.alpha6.toList p = .ok text ∧ text.length = (digitsOf 6 (beValue p)).length ∧
      (text.length = 0 ∨ 6 ^ (text.length - 1) < 256 ^ p.length))) ∧
  (∀ (c : Config) (text out : List Nat),
    fillP58Dec c.alpha58.toList text = .ok out ∨ fillP6Dec c.alpha6.toList text = .ok out →
    out.length ≤ text.length)

/-- spec/41_positional.md R94: every value of a positional command, and every prefix value on the way to it, fits the accumulator. -/
def Obligations.AccumulatorHoldsEveryValue : Prop :=
  ∀ (c : Config) (b : Nat) (ds : List Nat) (k : Nat), c.Wf → b = 256 ∨ b = 58 ∨ b = 6 → (∀ d ∈ ds, d < b) →
    ds.length ≤ c.inSize → valueOf b (ds.take k) ≤ valueOf b ds ∧ valueOf b ds < 2 ^ c.accBits

/-- spec/41_positional.md R99: the outputs for empty and all-zero payloads and texts. -/
def Obligations.EmptyAndAllZero : Prop :=
  ∀ (c : Config) (k : Nat), c.AlphabetsOk →
    fillP58Enc c.alpha58.toList (List.replicate k 0) = .ok (List.replicate k (charOf c.alpha58.toList 0)) ∧
    fillP6Enc c.alpha6.toList (List.replicate k 0) = .ok [] ∧
    fillP58Dec c.alpha58.toList (List.replicate k (charOf c.alpha58.toList 0)) = .ok (List.replicate k 0) ∧
    fillP6Dec c.alpha6.toList (List.replicate k (charOf c.alpha6.toList 0)) = .ok []

/-- spec/40_command.md R80: every length a command answers about an input in range fits RESULT. -/
def Obligations.InfoFitsResult : Prop :=
  ∀ (c : Config) (i : Instr) (x : List Nat), c.Wf → (∀ v ∈ x, v < 256 ^ i.eIn) → x.length * i.eIn ≤ c.inSize →
    (∀ len, commandQuery c i x = .ok len → len < 2 ^ 32) ∧
    (∀ elems, commandFill c i x = .ok elems → elems.length < 2 ^ 32 ∧ ∀ v ∈ elems, v < 256 ^ i.eOut)

/-! ### Every step -/

/-- Every step of the machine keeps the invariant: parameters, canonical buffers, produced codes, and the latch and the cleared
fields of a running command (spec/10_state.md R26, R30 to R34, spec/60_exceptions.md R150). -/
def Obligations.StepKeepsInv : Prop :=
  ∀ s t : State, BlockInv s → step s = .next t → BlockInv t

/-- spec/00_scope.md R5: no step changes a parameter. -/
def Obligations.ParametersNeverChange : Prop :=
  ∀ s t : State, step s = .next t → t.cfg = s.cfg

/-- spec/70_reset_and_hazards.md R181: only COMPLETE (or reset) ends a wait; until then the running command's latch, IN_LEN, OUT_CAP and
both buffers stay as they are. The model's choices here: `exec` is COMPLETE (log 2) and a reset input acts first (log 8). -/
def Obligations.OnlyCompleteEndsWait : Prop :=
  ∀ s t : State, s.busy = true → step s = .next t → s.resetIn = false →
    (∃ i, decode s.latCmd = .ok i ∧ exec i s = .next t) ∨
    (t.busy = true ∧ t.latCmd = s.latCmd ∧ t.latInLen = s.latInLen ∧ t.latOutCap = s.latOutCap ∧
      t.inLen = s.inLen ∧ t.outCap = s.outCap ∧ t.cmd = s.cmd ∧ t.inBuf = s.inBuf ∧ t.outBuf = s.outBuf ∧
      t.code = s.code ∧ t.result = s.result)

/-- spec/40_command.md R83: progress. While a legal command runs, each step is its COMPLETE or takes one from a finite delay,
and with no delay left, or no host line left, the step is COMPLETE. The delay and its count are the model's (log 3), as are `exec`
as COMPLETE (log 2) and that a reset input acts first (log 8). -/
def Obligations.DelayRunsDown : Prop :=
  ∀ s : State, BlockInv s → s.busy = true → s.resetIn = false →
    ((s.wait = 0 ∨ hostIdle s = true) → ∃ i, decode s.latCmd = .ok i ∧ step s = exec i s) ∧
    (∀ t, step s = .next t → t.busy = true → t.wait + 1 = s.wait)
end

