-- ==== Sys2Proof/Laws/Bus.lean ====
section
/-! SUPPORT. The aperture map, and everything one host access can do. -/

namespace Sys2Proof.Machine

theorem regionOf_registers {off : Nat} (h : off < 0x10000) : regionOf off = .registers off := by
  simp [regionOf, h]

theorem regionOf_inWindow {off : Nat} (h : off < 0x10000) : regionOf (0x10000 + off) = .inWindow off := by
  rw [regionOf, if_neg (by omega), if_pos (by omega), Nat.add_sub_cancel_left]

theorem regionOf_outWindow {off : Nat} (h : off < 0x10000) : regionOf (0x20000 + off) = .outWindow off := by
  rw [regionOf, if_neg (by omega), if_neg (by omega), if_pos (by omega), Nat.add_sub_cancel_left]

theorem regionOf_outside {off : Nat} (h : 0x30000 ≤ off) : regionOf off = .outside := by
  rw [regionOf, if_neg (by omega), if_neg (by omega), if_neg (by omega)]

/-- BASE + off selects offset off, for every offset of the aperture (spec/20_memory.md R40). -/
theorem apertureOffset_base (off : Nat) :
    apertureOffset (Config.base + off) = if off < 0x30000 then some off else none := by
  unfold apertureOffset
  split <;> split <;> first | (simp; done) | omega

theorem base_aligned : Config.base % 0x40000 = 0 := by simp [Config.base]

/-- Everything one write into the aperture can do. -/
theorem busWrite_cases {w : Width} {off : Nat} {v : Word} {s t : State} (h : busWrite w off v s = .next t) :
    t = s ∨ (s.busy = true ∧ t = dropWrite s) ∨
    (∃ o, t = writeCtrl v s ∧ regionOf off = .registers o) ∨
    (∃ o, t = clearStatus v s ∧ regionOf off = .registers o) ∨
    (s.busy = false ∧ regionOf off = .registers 0x00C ∧ t = issue v s) ∨
    (s.busy = false ∧ regionOf off = .registers 0x010 ∧ t = { s with inLen := v }) ∨
    (s.busy = false ∧ regionOf off = .registers 0x014 ∧ t = { s with outCap := v }) ∨
    (∃ o, s.busy = false ∧ regionOf off = .inWindow o ∧ o + w.bytes ≤ s.cfg.inSize ∧
      t = { s with inBuf := memWrite s.inBuf o w.bytes v.toNat }) ∨
    (∃ o, s.busy = false ∧ regionOf off = .outWindow o ∧ o + w.bytes ≤ s.cfg.outSize ∧
      t = { s with outBuf := memWrite s.outBuf o w.bytes v.toNat }) := by
  unfold busWrite at h
  split at h
  · rename_i o ho
    simp only [Host.Outcome.next.injEq] at h
    subst h
    split
    · unfold writeRegister
      split
      · simp [ho]
      · simp [ho]
      · unfold writeCmd; cases hb : s.busy <;> simp [ho]
      · unfold writeInLen; cases hb : s.busy <;> simp [ho]
      · unfold writeOutCap; cases hb : s.busy <;> simp [ho]
      · simp
    · simp
  · rename_i o ho
    simp only [Host.Outcome.next.injEq] at h
    subst h
    unfold writeInWindow
    split
    · simp
    · rename_i ha
      cases hb : s.busy
      · simp only [bufferAccess, Bool.not_eq_true', Bool.not_eq_false, Bool.and_eq_true, decide_eq_true_eq] at ha
        simp [ho, ha.2]
      · simp
  · rename_i o ho
    simp only [Host.Outcome.next.injEq] at h
    subst h
    unfold writeOutWindow
    split
    · simp
    · rename_i ha
      cases hb : s.busy
      · simp only [bufferAccess, Bool.not_eq_true', Bool.not_eq_false, Bool.and_eq_true, decide_eq_true_eq] at ha
        simp [ho, ha.2]
      · simp
  · simp at h

end Sys2Proof.Machine
end

