-- ==== Sys2Proof/Laws/Codec.lean ====
section
/-! SUPPORT. The sequence and number helpers: what each computes, in one lemma or two. -/

namespace Sys2Proof.Machine

/-! ### Digits and values (spec/00_scope.md R11) -/

theorem digitsUpTo_eq {b : Nat} (hb : 2 ≤ b) (fuel n : Nat) (h : n < 2 ^ fuel) :
    digitsUpTo fuel b n = (Nat.digits b n).reverse := by
  induction fuel generalizing n with
  | zero => obtain rfl : n = 0 := by simpa using h
            simp [digitsUpTo]
  | succ fuel ih =>
    rw [digitsUpTo]
    split
    · simp_all
    · rename_i hn
      have hlt : n / b < 2 ^ fuel := by
        rw [pow_succ] at h
        have : n / b ≤ n / 2 := Nat.div_le_div_left hb (by omega)
        omega
      rw [ih _ hlt, Nat.digits_def' (by omega : 1 < b) (Nat.pos_of_ne_zero hn : 0 < n)]
      simp

/-- digits_b is Mathlib's digits, most significant first. -/
theorem digitsOf_eq {b : Nat} (hb : 2 ≤ b) (n : Nat) : digitsOf b n = (Nat.digits b n).reverse :=
  digitsUpTo_eq hb _ n Nat.lt_log2_self

/-- The defining equation of digits_b in spec/00_scope.md R11. -/
theorem digitsOf_step {b : Nat} (hb : 2 ≤ b) (n : Nat) :
    digitsOf b n = if n = 0 then [] else digitsOf b (n / b) ++ [n % b] := by
  rw [digitsOf_eq hb, digitsOf_eq hb]
  split
  · simp_all
  · rename_i hn
    rw [Nat.digits_def' (by omega : 1 < b) (Nat.pos_of_ne_zero hn : 0 < n)]; simp

@[simp] theorem digitsOf_zero (b : Nat) : digitsOf b 0 = [] := rfl

/-- value_b is Mathlib's ofDigits of the reversed sequence. -/
theorem valueOf_eq (b : Nat) (ds : List Nat) : valueOf b ds = Nat.ofDigits b ds.reverse := by
  rw [valueOf, ← List.foldr_reverse, Nat.ofDigits_eq_foldr]
  congr 1
  funext d acc
  simp [Nat.mul_comm, Nat.add_comm]

theorem valueOf_digitsOf {b : Nat} (hb : 2 ≤ b) (n : Nat) : valueOf b (digitsOf b n) = n := by
  rw [valueOf_eq, digitsOf_eq hb, List.reverse_reverse, Nat.ofDigits_digits]

theorem digitsOf_lt {b : Nat} (hb : 2 ≤ b) {n d : Nat} (h : d ∈ digitsOf b n) : d < b := by
  rw [digitsOf_eq hb] at h
  exact Nat.digits_lt_base (by omega) (by simpa using h)

/-- A digit sequence without a leading zero is the minimal one of its value. -/
theorem digitsOf_valueOf {b : Nat} (hb : 2 ≤ b) {ds : List Nat} (hlt : ∀ d ∈ ds, d < b)
    (h0 : ds.head? ≠ some 0) : digitsOf b (valueOf b ds) = ds := by
  rw [valueOf_eq, digitsOf_eq hb, Nat.digits_ofDigits b (by omega) _ (by simpa using hlt), List.reverse_reverse]
  intro hne
  cases ds with
  | nil => simp at hne
  | cons d ds => simpa [eq_comm] using h0

theorem valueOf_lt {b : Nat} {ds : List Nat} (hb : 2 ≤ b) (hlt : ∀ d ∈ ds, d < b) :
    valueOf b ds < b ^ ds.length := by
  rw [valueOf_eq]
  have := Nat.ofDigits_lt_base_pow_length (b := b) (l := ds.reverse) (by omega) (by simpa using hlt)
  simpa using this

/-- Leading zeros do not change a value. -/
theorem valueOf_replicate_zero (b k : Nat) (ds : List Nat) :
    valueOf b (List.replicate k 0 ++ ds) = valueOf b ds := by
  induction k with
  | zero => simp
  | succ k ih => rw [← ih]; simp [List.replicate_succ, valueOf]

/-- A value below b^k has at most k digits. -/
theorem length_digitsOf_le {b n k : Nat} (hb : 2 ≤ b) (h : n < b ^ k) : (digitsOf b n).length ≤ k := by
  rw [digitsOf_eq hb, List.length_reverse]
  exact (Nat.digits_length_le_iff (by omega) n).2 h

/-! ### Leading runs -/

theorem lead_le (s : List Nat) (x : Nat) : lead s x ≤ s.length :=
  (List.takeWhile_sublist _).length_le

theorem take_lead (s : List Nat) (x : Nat) : s.take (lead s x) = List.replicate (lead s x) x := by
  induction s with
  | nil => simp [lead]
  | cons y ys ih =>
    by_cases h : y = x
    · subst h
      have : lead (y :: ys) y = lead ys y + 1 := by simp [lead]
      rw [this, List.take_succ_cons, ih, List.replicate_succ]
    · have : lead (y :: ys) x = 0 := by simp [lead, h]
      simp [this]

theorem head_drop_lead (s : List Nat) (x : Nat) : (s.drop (lead s x)).head? ≠ some x := by
  induction s with
  | nil => simp [lead]
  | cons y ys ih =>
    by_cases h : y = x
    · subst h
      have : lead (y :: ys) y = lead ys y + 1 := by simp [lead]
      rwa [this, List.drop_succ_cons]
    · have : lead (y :: ys) x = 0 := by simp [lead, h]
      simp [this, h]

/-- The run of x at the front of `replicate k x ++ t` is k long where t does not begin with x. -/
theorem lead_replicate (k x : Nat) {t : List Nat} (h : t.head? ≠ some x) :
    lead (List.replicate k x ++ t) x = k := by
  induction k with
  | zero =>
    cases t with
    | nil => simp [lead]
    | cons y ys => simp at h; simp [lead, h]
  | succ k ih => simpa [List.replicate_succ, lead] using ih

/-! ### Alphabets (spec/00_scope.md R10) -/

theorem digitOf_eq_none {alphabet : List Byte} {c : Nat} :
    digitOf? alphabet c = none ↔ ∀ a ∈ alphabet, a.toNat ≠ c := by
  induction alphabet with
  | nil => simp [digitOf?]
  | cons a rest ih => simp only [digitOf?]; split <;> simp_all

theorem digitOf_eq_some {alphabet : List Byte} {c d : Nat} (h : digitOf? alphabet c = some d) :
    d < alphabet.length ∧ charOf alphabet d = c := by
  induction alphabet generalizing d with
  | nil => simp [digitOf?] at h
  | cons a rest ih =>
    simp only [digitOf?] at h
    split at h
    · cases h; simp_all [charOf]
    · cases hr : digitOf? rest c with
      | none => simp [hr] at h
      | some e =>
        simp [hr] at h
        subst h
        have := ih hr
        simp_all [charOf]

theorem digitOf_charOf {alphabet : List Byte} (hn : alphabet.Nodup) {d : Nat} (hd : d < alphabet.length) :
    digitOf? alphabet (charOf alphabet d) = some d := by
  induction alphabet generalizing d with
  | nil => simp at hd
  | cons a rest ih =>
    cases d with
    | zero => simp [digitOf?, charOf]
    | succ d =>
      rw [List.nodup_cons] at hn
      simp only [List.length_cons] at hd
      have hd' : d < rest.length := by omega
      have hne : a.toNat ≠ charOf (a :: rest) (d + 1) := by
        intro he
        apply hn.1
        have : a = rest[d] := BitVec.eq_of_toNat_eq (by simpa [charOf, hd'] using he)
        rw [this]
        exact List.getElem_mem hd'
      have := ih hn.2 hd'
      simp only [digitOf?, if_neg hne]
      simp_all [charOf]

/-- The validation loop answers the digits of a text over the alphabet. -/
theorem digitValues_map {alphabet : List Byte} (hn : alphabet.Nodup) {ds : List Nat}
    (hd : ∀ d ∈ ds, d < alphabet.length) (i : Nat) :
    digitValues alphabet i (ds.map (charOf alphabet)) = .ok ds := by
  induction ds generalizing i with
  | nil => rfl
  | cons d ds ih =>
    simp only [List.map_cons, digitValues, digitOf_charOf hn (hd d (by simp)),
      ih (fun e he => hd e (by simp [he])), Answer.map]

/-- The validation loop answers the lowest index whose character is not in the alphabet. -/
theorem digitValues_err {alphabet : List Byte} {text : List Nat} {j : Nat} (hj : j < text.length)
    (hbad : ∀ a ∈ alphabet, a.toNat ≠ text[j])
    (hgood : ∀ k (hk : k < j), ∃ a ∈ alphabet, a.toNat = text[k]) (i : Nat) :
    digitValues alphabet i text = .err .invalidSymbol (i + j) := by
  induction text generalizing i j with
  | nil => simp at hj
  | cons c rest ih =>
    cases j with
    | zero =>
      have : digitOf? alphabet c = none := digitOf_eq_none.2 (by simpa using hbad)
      simp [digitValues, this]
    | succ j =>
      have hc : digitOf? alphabet c ≠ none := by
        intro h
        obtain ⟨a, ha, he⟩ := hgood 0 (by omega)
        exact digitOf_eq_none.1 h a ha (by simpa using he)
      obtain ⟨d, hd⟩ := Option.ne_none_iff_exists'.1 hc
      have := ih (j := j) (by simpa using hj) (by simpa using hbad)
        (fun k hk => by simpa using hgood (k + 1) (by omega)) (i + 1)
      simp only [digitValues, hd, this, Answer.map]
      congr 1; omega

/-- What the validation loop can answer at all. -/
theorem digitValues_cases (alphabet : List Byte) (i : Nat) (text : List Nat) :
    (∃ ds, digitValues alphabet i text = .ok ds ∧ ds.map (charOf alphabet) = text ∧ ∀ d ∈ ds, d < alphabet.length) ∨
    (∃ j < text.length, digitValues alphabet i text = .err .invalidSymbol (i + j)) := by
  induction text generalizing i with
  | nil => exact .inl ⟨[], rfl, rfl, by simp⟩
  | cons c rest ih =>
    cases hc : digitOf? alphabet c with
    | none => exact .inr ⟨0, by simp, by simp [digitValues, hc]⟩
    | some d =>
      rcases ih (i + 1) with ⟨ds, h1, h2, h3⟩ | ⟨j, hj, h⟩
      · refine .inl ⟨d :: ds, by simp [digitValues, hc, h1, Answer.map], ?_, ?_⟩
        · simp [h2, (digitOf_eq_some hc).2]
        · intro e he
          rcases List.mem_cons.1 he with rfl | he
          · exact (digitOf_eq_some hc).1
          · exact h3 e he
      · refine .inr ⟨j + 1, by simpa using hj, ?_⟩
        simp only [digitValues, hc, h, Answer.map]
        congr 1; omega

/-! ### Groups -/

theorem chunksUpTo_fuel {α : Type} {k : Nat} (hk : 0 < k) (f g : Nat) (xs : List α)
    (hf : xs.length ≤ f) (hg : xs.length ≤ g) : chunksUpTo f k xs = chunksUpTo g k xs := by
  induction f generalizing g xs with
  | zero =>
    obtain rfl : xs = [] := by simpa using hf
    cases g <;> rfl
  | succ f ih =>
    cases xs with
    | nil => cases g <;> rfl
    | cons x xs =>
      cases g with
      | zero => simp at hg
      | succ g =>
        simp only [List.length_cons] at hf hg
        simp only [chunksUpTo]
        rw [ih g _ (by simp; omega) (by simp; omega)]

@[simp] theorem chunks_nil {α : Type} (k : Nat) : chunks k ([] : List α) = [] := rfl

/-- The first group, then the groups of the rest. -/
theorem chunks_cons {α : Type} {k : Nat} (hk : 0 < k) {xs : List α} (h : xs ≠ []) :
    chunks k xs = xs.take k :: chunks k (xs.drop k) := by
  cases xs with
  | nil => simp at h
  | cons x xs =>
    rw [chunks, List.length_cons, chunksUpTo, chunks,
      chunksUpTo_fuel hk xs.length _ _ (by simp; omega) le_rfl]

theorem length_chunks {α : Type} {k : Nat} (hk : 0 < k) (xs : List α) :
    (chunks k xs).length = ceilDiv xs.length k := by
  induction h : xs.length using Nat.strong_induction_on generalizing xs with
  | _ n ih =>
    by_cases hx : xs = []
    · subst hx; simp at h; subst h
      simp [ceilDiv, Nat.div_eq_of_lt (by omega : k - 1 < k)]
    · have hpos := List.length_pos_of_ne_nil hx
      rw [chunks_cons hk hx, List.length_cons, ih (n - k) (by omega) _ (by simp [h])]
      simp only [ceilDiv]
      by_cases hle : k ≤ n
      · rw [show n + k - 1 = (n - k + k - 1) + k by omega, Nat.add_div_right _ hk]
      · rw [show n - k = 0 by omega, show n + k - 1 = (n - 1) + k by omega, Nat.add_div_right _ hk,
          Nat.div_eq_of_lt (by omega : n - 1 < k), Nat.div_eq_of_lt (by omega : 0 + k - 1 < k)]

/-- Group g holds elements g*k to g*k+k-1. -/
theorem getElem_chunks {α : Type} {k : Nat} (hk : 0 < k) (xs : List α) (g : Nat)
    (h : g < (chunks k xs).length) : (chunks k xs)[g] = (xs.drop (g * k)).take k := by
  induction g generalizing xs with
  | zero =>
    have hx : xs ≠ [] := by rintro rfl; simp at h
    simp [chunks_cons hk hx]
  | succ g ih =>
    have hx : xs ≠ [] := by rintro rfl; simp at h
    have h' := h
    rw [chunks_cons hk hx, List.length_cons] at h'
    have := ih (xs.drop k) (by omega)
    simp only [chunks_cons hk hx, List.getElem_cons_succ, this, List.drop_drop]
    rw [Nat.add_mul, Nat.one_mul, Nat.add_comm]

/-! ### Lengths of the codecs' outputs -/

theorem length_packLanes {wn : Nat} (h : wn = 8 ∨ wn = 16) (x : List Nat) :
    (packLanes wn x).length = ceilDiv x.length (32 / wn) := by
  rw [packLanes, List.length_map, length_chunks]
  rcases h with rfl | rfl <;> decide

theorem keptLength_le (xs : List Nat) : keptLength xs ≤ xs.length := by
  induction xs with
  | nil => simp [keptLength]
  | cons x xs ih => simp only [keptLength, List.length_cons]; split <;> (try split) <;> omega

@[simp] theorem length_subLanes (wn w : Nat) : (subLanes wn w).length = 32 / wn := by simp [subLanes]

theorem length_unpackLanes (wn : Nat) (ws : List Nat) : (unpackLanes wn ws).length = unpackedLength wn ws := by
  induction ws with
  | nil => rfl
  | cons w ws ih =>
    cases ws with
    | nil =>
      have := keptLength_le (subLanes wn w)
      simp only [unpackLanes, unpackedLength, topLanes, List.length_take, List.getLast?_singleton]
      simp at this ⊢; omega
    | cons v ws =>
      simp only [unpackLanes, List.length_append, ih, length_subLanes]
      simp only [unpackedLength, List.getLast?_cons_cons]
      cases hg : (v :: ws).getLast? with
      | none => simp at hg
      | some u => simp only [List.length_cons, Nat.add_sub_cancel]; ring

theorem length_encodeBlocks (a : List Byte) (p : Byte) (x : List Nat) :
    ((chunks 3 x).flatMap (encodeBlock a p)).length = 4 * ceilDiv x.length 3 := by
  induction h : x.length using Nat.strong_induction_on generalizing x with
  | _ n ih =>
    by_cases hx : x = []
    · subst hx; simp at h; subst h; rfl
    · rw [chunks_cons (by omega) hx, List.flatMap_cons, List.length_append]
      have hpos := List.length_pos_of_ne_nil hx
      rw [ih (n - 3) (by omega) (x.drop 3) (by simp [h])]
      simp [encodeBlock, ceilDiv, h]
      omega

theorem length_decodeGroups (c : List Nat) :
    ((chunks 4 c).flatMap decodeGroup).length = 3 * (c.length / 4) + (c.length % 4 - 1) := by
  induction h : c.length using Nat.strong_induction_on generalizing c with
  | _ n ih =>
    by_cases hx : c = []
    · subst hx; simp at h; subst h; rfl
    · rw [chunks_cons (by omega) hx, List.flatMap_cons, List.length_append]
      have hpos := List.length_pos_of_ne_nil hx
      rw [ih (n - 4) (by omega) (c.drop 4) (by simp [h])]
      simp [decodeGroup, h]
      omega

theorem padCount_le (p : Byte) (t : List Nat) : padCount p t ≤ 2 ∧ padCount p t ≤ t.length := by
  unfold padCount
  have : t.length = t.reverse.length := by simp
  rw [this]
  split <;> (try split) <;> (try split) <;> simp_all

theorem map_ok {α β : Type} {f : α → β} {a : Answer α} {y : β} (h : a.map f = .ok y) :
    ∃ x, a = .ok x ∧ f x = y := by
  cases a with
  | err c k => simp [Answer.map] at h
  | ok x => simp [Answer.map] at h; exact ⟨x, rfl, h⟩

end Sys2Proof.Machine
end

