-- ==== Sys2Proof/Laws/Memory.lean ====
section
/-! SUPPORT. Buffers: a read after a write, and that every write keeps the canonical form. -/

namespace Sys2Proof.Machine

/-! ### One byte -/

@[simp] theorem read_nil (a : Nat) : Memory.read? [] a = none := rfl

theorem read_write (m : Memory) (a : Nat) (b : Byte) (x : Nat) :
    (m.write a b).read? x = if x = a then some b else m.read? x := by
  induction m with
  | nil => simp only [Memory.write, Memory.read?, eq_comm]
  | cons c rest ih =>
    obtain ⟨y, c⟩ := c
    simp only [Memory.write]
    split
    · simp only [Memory.read?, eq_comm]
    · split
      · subst_vars; simp only [Memory.read?]; split <;> simp_all [eq_comm]
      · simp only [Memory.read?, ih]; split <;> split <;> simp_all

@[simp] theorem read_write_same (m : Memory) (a : Nat) (b : Byte) : (m.write a b).read? a = some b := by
  simp [read_write]

theorem read_write_other (m : Memory) (b : Byte) {a x : Nat} (h : x ≠ a) :
    (m.write a b).read? x = m.read? x := by
  simp [read_write, h]

theorem wf_iff (size : Nat) (m : Memory) :
    m.wf size = true ↔ m.Pairwise (fun c d => c.1 < d.1) ∧ ∀ c ∈ m, c.1 < size := by
  simp [Memory.wf]

/-- Every offset a write leaves listed was listed before or is the one written. -/
theorem mem_write {m : Memory} {a : Nat} {b : Byte} {c : Host.Cell} (h : c ∈ m.write a b) :
    c.1 = a ∨ c ∈ m := by
  induction m with
  | nil => simp [Memory.write] at h; simp [h]
  | cons d rest ih =>
    obtain ⟨y, d⟩ := d
    simp only [Memory.write] at h
    split at h
    · simp at h; rcases h with rfl | rfl | h <;> simp_all
    · split at h
      · simp at h; rcases h with rfl | h <;> simp_all
      · simp at h
        rcases h with rfl | h
        · simp
        · rcases ih h with h | h <;> simp [h]

theorem write_keeps_wf {size : Nat} {m : Memory} {a : Nat} (b : Byte)
    (h : m.wf size = true) (ha : a < size) : (m.write a b).wf size = true := by
  rw [wf_iff] at h ⊢
  obtain ⟨hp, hs⟩ := h
  refine ⟨?_, fun c hc => ?_⟩
  · clear hs
    induction m with
    | nil => simp [Memory.write]
    | cons d rest ih =>
      obtain ⟨y, d⟩ := d
      rw [List.pairwise_cons] at hp
      simp only [Memory.write]
      split
      · rename_i hlt
        refine List.pairwise_cons.2 ⟨fun c hc => ?_, List.pairwise_cons.2 hp⟩
        rcases List.mem_cons.1 hc with rfl | hc
        · exact hlt
        · exact hlt.trans (hp.1 c hc)
      · split
        · subst_vars; exact List.pairwise_cons.2 hp
        · refine List.pairwise_cons.2 ⟨fun c hc => ?_, ih hp.2⟩
          rcases mem_write hc with h | h
          · show y < c.1; omega
          · exact hp.1 c h
  · rcases mem_write hc with h | h
    · omega
    · exact hs c h

/-! ### Wide accesses -/

theorem read_memWrite (n : Nat) (m : Memory) (off v x : Nat) :
    (memWrite m off n v).read? x =
      if off ≤ x ∧ x < off + n then some (byteAt v (x - off)) else m.read? x := by
  induction n generalizing m off v with
  | zero => simp only [memWrite]; rw [if_neg (by omega)]
  | succ n ih =>
    simp only [memWrite, ih, read_write]
    by_cases hx : x = off
    · subst hx
      rw [if_neg (by omega), if_pos rfl, if_pos (by omega)]
      simp [byteAt]
    · rw [if_neg hx]
      by_cases h : off + 1 ≤ x ∧ x < off + 1 + n
      · rw [if_pos h, if_pos (by omega)]
        simp only [byteAt, Nat.div_div_eq_div_mul]
        rw [show x - off = (x - (off + 1)) + 1 by omega, pow_succ, Nat.mul_comm 256]
      · rw [if_neg h, if_neg (by omega)]

theorem memWrite_keeps_wf {size : Nat} (n : Nat) {m : Memory} {off : Nat} (v : Nat)
    (h : m.wf size = true) (ho : off + n ≤ size) : (memWrite m off n v).wf size = true := by
  induction n generalizing m off v with
  | zero => exact h
  | succ n ih => exact ih _ (write_keeps_wf _ h (by omega)) (by omega)

/-- A wide read answers exactly when every byte is written. -/
theorem memRead_eq_none {m : Memory} {n off : Nat} :
    memRead m off n = none ↔ ∃ k < n, m.read? (off + k) = none := by
  induction n generalizing off with
  | zero => simp [memRead]
  | succ n ih =>
    simp only [memRead]
    constructor
    · intro h
      split at h
      · simp at h
      · rename_i hno
        cases hb : m.read? off with
        | none => exact ⟨0, by omega, by simpa using hb⟩
        | some b =>
          cases hr : memRead m (off + 1) n with
          | none =>
            obtain ⟨k, hk, he⟩ := ih.1 hr
            exact ⟨k + 1, by omega, by rw [← he]; congr 1; omega⟩
          | some v => exact (hno b v hb hr).elim
    · rintro ⟨k, hk, he⟩
      split
      · rename_i b v hb hv
        rcases k with _ | k
        · simp_all
        · have : memRead m (off + 1) n = none := ih.2 ⟨k, by omega, by rw [← he]; congr 1; omega⟩
          simp_all
      · rfl

/-- The little-endian value of a byte string. -/
def leValue : List Byte → Nat
  | [] => 0
  | b :: bs => b.toNat + 256 * leValue bs

/-- A wide read of bytes that are all written is their little-endian value (spec/00_scope.md R9). -/
theorem memRead_of_bytes (m : Memory) (bs : List Byte) (off : Nat)
    (h : ∀ k (hk : k < bs.length), m.read? (off + k) = some bs[k]) :
    memRead m off bs.length = some (leValue bs) := by
  induction bs generalizing off with
  | nil => rfl
  | cons b bs ih =>
    have h0 := h 0 (by simp)
    simp only [Nat.add_zero, List.getElem_cons_zero] at h0
    have hr := ih (off + 1) fun k hk => by
      have := h (k + 1) (by simp; omega)
      simp only [List.getElem_cons_succ] at this
      rw [← this]; congr 1; omega
    simp [memRead, h0, hr, leValue]

theorem leValue_lt (bs : List Byte) : leValue bs < 256 ^ bs.length := by
  induction bs with
  | nil => simp [leValue]
  | cons b bs ih => simp only [leValue, List.length_cons, pow_succ]; have := b.isLt; omega

/-! ### Elements -/

theorem inElems_congr {m m' : Memory} (e n : Nat)
    (h : ∀ a < n * e, m.read? a = m'.read? a) : inElems m e n = inElems m' e n := by
  have hr : ∀ k off, (∀ a, off ≤ a → a < off + k → m.read? a = m'.read? a) →
      memRead m off k = memRead m' off k := by
    intro k
    induction k with
    | zero => intros; rfl
    | succ k ih =>
      intro off hk
      simp only [memRead]
      rw [hk off (by omega) (by omega), ih (off + 1) fun a h1 h2 => hk a (by omega) (by omega)]
  have hf : ∀ k i, i + k = n → elemsFrom m e i k = elemsFrom m' e i k := by
    intro k
    induction k with
    | zero => intros; rfl
    | succ k ih =>
      intro i hi
      simp only [elemsFrom]
      rw [ih (i + 1) (by omega), hr e (i * e) fun a h1 h2 => h a ?_]
      have : (i + 1) * e ≤ n * e := Nat.mul_le_mul_right _ (by omega)
      have := Nat.add_mul i 1 e
      omega
  exact hf n 0 (by omega)

theorem length_elemsFrom {m : Memory} {e i n : Nat} {x : List Nat}
    (h : elemsFrom m e i n = some x) : x.length = n := by
  induction n generalizing i x with
  | zero => simp [elemsFrom] at h; simp [← h]
  | succ n ih =>
    simp only [elemsFrom] at h
    split at h
    · rename_i v vs _ hvs
      cases h
      simp [ih hvs]
    · simp at h

/-- InElems gives exactly the number of elements asked for. -/
theorem length_inElems {m : Memory} {e n : Nat} {x : List Nat} (h : inElems m e n = some x) :
    x.length = n := length_elemsFrom h

/-- An n-byte read is below 256^n. -/
theorem memRead_lt {m : Memory} {n off v : Nat} (h : memRead m off n = some v) : v < 256 ^ n := by
  induction n generalizing off v with
  | zero => simp only [memRead, Option.some.injEq] at h; simp [← h]
  | succ n ih =>
    simp only [memRead] at h
    split at h
    · rename_i b w hb hw
      have := ih hw
      have := b.isLt
      cases h
      rw [pow_succ]; omega
    · simp at h

/-- Every input element of e bytes is below 256^e. -/
theorem inElems_lt {m : Memory} {e n : Nat} {x : List Nat} (h : inElems m e n = some x) : ∀ v ∈ x, v < 256 ^ e := by
  have hf : ∀ k i x, elemsFrom m e i k = some x → ∀ v ∈ x, v < 256 ^ e := by
    intro k
    induction k with
    | zero => intro i x h v hv; cases h; simp at hv
    | succ k ih =>
      intro i x h v hv
      simp only [elemsFrom] at h
      split at h
      · rename_i w ws hw hws
        cases h
        rcases List.mem_cons.1 hv with rfl | hv
        · exact memRead_lt hw
        · exact ih _ _ hws v hv
      · simp at h
  exact hf _ _ _ h

/-- The elements of a byte string: its groups of e bytes, little-endian (spec/20_memory.md R46). -/
theorem inElems_of_bytes (m : Memory) (e n : Nat) (bs : List Byte) (hlen : bs.length = n * e)
    (h : ∀ k (hk : k < bs.length), m.read? k = some bs[k]) :
    inElems m e n = some ((List.range n).map fun i => leValue ((bs.drop (i * e)).take e)) := by
  have hf : ∀ k i, i + k = n → elemsFrom m e i k =
      some ((List.range' i k).map fun i => leValue ((bs.drop (i * e)).take e)) := by
    intro k
    induction k with
    | zero => intros; rfl
    | succ k ih =>
      intro i hi
      have hle : (i + 1) * e ≤ n * e := Nat.mul_le_mul_right _ (by omega)
      have hadd := Nat.add_mul i 1 e
      have hl : ((bs.drop (i * e)).take e).length = e := by simp; omega
      have hm := memRead_of_bytes m ((bs.drop (i * e)).take e) (i * e) fun k hk => by
        rw [hl] at hk
        rw [h (i * e + k) (by omega)]
        simp [List.getElem_take, List.getElem_drop]
      rw [hl] at hm
      simp only [elemsFrom, hm, ih (i + 1) (by omega), List.range'_succ, List.map_cons]
  rw [inElems, hf n 0 (by omega), List.range_eq_range']

/-- InElems answers none exactly when one of its bytes is unwritten (spec/10_state.md R32). -/
theorem inElems_eq_none {m : Memory} {e n : Nat} :
    inElems m e n = none ↔ ∃ a < n * e, m.read? a = none := by
  have hf : ∀ k i, elemsFrom m e i k = none ↔ ∃ a, i * e ≤ a ∧ a < (i + k) * e ∧ m.read? a = none := by
    intro k
    induction k with
    | zero => intro i; simp [elemsFrom]; intro a h1 h2; omega
    | succ k ih =>
      intro i
      have h1 : (i + (k + 1)) * e = (i + 1 + k) * e := by congr 1; omega
      have h2 : (i + 1) * e = i * e + e := by rw [Nat.add_mul]; omega
      have h3 : (i + 1) * e ≤ (i + 1 + k) * e := Nat.mul_le_mul_right _ (by omega)
      simp only [elemsFrom]
      constructor
      · intro h
        split at h
        · simp at h
        · rename_i hno
          cases hv : memRead m (i * e) e with
          | none =>
            obtain ⟨j, hj, he⟩ := memRead_eq_none.1 hv
            exact ⟨i * e + j, by omega, by omega, he⟩
          | some v =>
            cases hr : elemsFrom m e (i + 1) k with
            | none =>
              obtain ⟨a, ha, hb, he⟩ := (ih (i + 1)).1 hr
              exact ⟨a, by omega, by omega, he⟩
            | some vs => exact (hno v vs hv hr).elim
      · rintro ⟨a, ha, hb, he⟩
        split
        · rename_i v vs hv hvs
          by_cases hlt : a < (i + 1) * e
          · have : memRead m (i * e) e = none :=
              memRead_eq_none.2 ⟨a - i * e, by omega, by rw [← he]; congr 1; omega⟩
            simp_all
          · have : elemsFrom m e (i + 1) k = none := (ih (i + 1)).2 ⟨a, by omega, by omega, he⟩
            simp_all
        · rfl
  rw [inElems, hf]
  simp

theorem read_writeElemsFrom (e : Nat) (elems : List Nat) (m : Memory) (i a : Nat) (he : 0 < e) :
    (writeElemsFrom m e i elems).read? a =
      if i * e ≤ a ∧ a < (i + elems.length) * e
      then some (byteAt (elems.getD (a / e - i) 0) (a % e)) else m.read? a := by
  induction elems generalizing m i with
  | nil => simp only [writeElemsFrom, List.length_nil, Nat.add_zero]; rw [if_neg (by omega)]
  | cons v vs ih =>
    have h1 : (i + (vs.length + 1)) * e = (i + 1 + vs.length) * e := by congr 1; omega
    have h2 : (i + 1) * e = i * e + e := by rw [Nat.add_mul]; omega
    have h3 : (i + 1) * e ≤ (i + 1 + vs.length) * e := Nat.mul_le_mul_right _ (by omega)
    simp only [writeElemsFrom, ih, read_memWrite, List.length_cons, h1]
    by_cases hin : i * e ≤ a ∧ a < i * e + e
    · have hdiv : a / e = i := by
        rw [Nat.div_eq_iff he]; constructor
        · omega
        · omega
      have hmod : a % e = a - i * e := by
        have := Nat.div_add_mod a e; rw [hdiv, Nat.mul_comm] at this; omega
      rw [if_neg (by omega), if_pos hin, if_pos (by omega), hdiv, hmod]
      simp
    · by_cases hge : (i + 1) * e ≤ a ∧ a < (i + 1 + vs.length) * e
      · have hdiv : i + 1 ≤ a / e := by rw [Nat.le_div_iff_mul_le he]; omega
        rw [if_pos hge, if_pos (by omega), show a / e - i = (a / e - (i + 1)) + 1 by omega]
        simp
      · rw [if_neg hge, if_neg hin, if_neg (by omega)]

/-- What OutElems leaves at every offset (spec/00_scope.md R9, spec/20_memory.md R57). -/
theorem read_outElems (m : Memory) (e : Nat) (elems : List Nat) (a : Nat) (he : 0 < e) :
    (outElems m e elems).read? a =
      if a < elems.length * e then some (byteAt (elems.getD (a / e) 0) (a % e)) else m.read? a := by
  rw [outElems, read_writeElemsFrom e elems m 0 a he]
  simp

theorem outElems_keeps_wf {size : Nat} {m : Memory} {e : Nat} {elems : List Nat}
    (h : m.wf size = true) (hs : elems.length * e ≤ size) : (outElems m e elems).wf size = true := by
  have hf : ∀ (vs : List Nat) (m : Memory) (i : Nat), m.wf size = true → (i + vs.length) * e ≤ size →
      (writeElemsFrom m e i vs).wf size = true := by
    intro vs
    induction vs with
    | nil => intro m i h _; exact h
    | cons v vs ih =>
      intro m i h hs
      have h1 : (i + (vs.length + 1)) * e = (i + 1 + vs.length) * e := by congr 1; omega
      have h2 : (i + 1) * e = i * e + e := by rw [Nat.add_mul]; omega
      have h3 : (i + 1) * e ≤ (i + 1 + vs.length) * e := Nat.mul_le_mul_right _ (by omega)
      simp only [List.length_cons, h1] at hs
      exact ih _ _ (memWrite_keeps_wf e v h (by omega)) hs
  exact hf elems m 0 h (by simpa using hs)

end Sys2Proof.Machine
end

