-- ==== Sys2Proof/Laws/State.lean ====
section
/-! SUPPORT. One lemma per field and named update of the state, each true by unfolding the update. -/

namespace Sys2Proof.Machine

/-! ### `finish` -/

@[simp] theorem finish_cfg (code : StatusCode) (info : Nat) (s : State) :
    (finish code info s).cfg = s.cfg := rfl
@[simp] theorem finish_ie (code : StatusCode) (info : Nat) (s : State) :
    (finish code info s).ie = s.ie := rfl
@[simp] theorem finish_busy (code : StatusCode) (info : Nat) (s : State) :
    (finish code info s).busy = false := rfl
@[simp] theorem finish_done (code : StatusCode) (info : Nat) (s : State) :
    (finish code info s).done = true := rfl
@[simp] theorem finish_ovr (code : StatusCode) (info : Nat) (s : State) :
    (finish code info s).ovr = s.ovr := rfl
@[simp] theorem finish_code (code : StatusCode) (info : Nat) (s : State) :
    (finish code info s).code = code := rfl
@[simp] theorem finish_cmd (code : StatusCode) (info : Nat) (s : State) :
    (finish code info s).cmd = s.cmd := rfl
@[simp] theorem finish_inLen (code : StatusCode) (info : Nat) (s : State) :
    (finish code info s).inLen = s.inLen := rfl
@[simp] theorem finish_outCap (code : StatusCode) (info : Nat) (s : State) :
    (finish code info s).outCap = s.outCap := rfl
@[simp] theorem finish_result (code : StatusCode) (info : Nat) (s : State) :
    (finish code info s).result = BitVec.ofNat 32 info := rfl
@[simp] theorem finish_inBuf (code : StatusCode) (info : Nat) (s : State) :
    (finish code info s).inBuf = s.inBuf := rfl
@[simp] theorem finish_outBuf (code : StatusCode) (info : Nat) (s : State) :
    (finish code info s).outBuf = s.outBuf := rfl
@[simp] theorem finish_latCmd (code : StatusCode) (info : Nat) (s : State) :
    (finish code info s).latCmd = s.latCmd := rfl
@[simp] theorem finish_latInLen (code : StatusCode) (info : Nat) (s : State) :
    (finish code info s).latInLen = s.latInLen := rfl
@[simp] theorem finish_latOutCap (code : StatusCode) (info : Nat) (s : State) :
    (finish code info s).latOutCap = s.latOutCap := rfl
@[simp] theorem finish_acc (code : StatusCode) (info : Nat) (s : State) :
    (finish code info s).acc = s.acc := rfl
@[simp] theorem finish_resetIn (code : StatusCode) (info : Nat) (s : State) :
    (finish code info s).resetIn = s.resetIn := rfl
@[simp] theorem finish_script (code : StatusCode) (info : Nat) (s : State) :
    (finish code info s).script = s.script := rfl
@[simp] theorem finish_pos (code : StatusCode) (info : Nat) (s : State) :
    (finish code info s).pos = s.pos := rfl
@[simp] theorem finish_temp (code : StatusCode) (info : Nat) (s : State) :
    (finish code info s).temp = s.temp := rfl
@[simp] theorem finish_wait (code : StatusCode) (info : Nat) (s : State) :
    (finish code info s).wait = s.wait := rfl
@[simp] theorem finish_delays (code : StatusCode) (info : Nat) (s : State) :
    (finish code info s).delays = s.delays := rfl
@[simp] theorem finish_draws (code : StatusCode) (info : Nat) (s : State) :
    (finish code info s).draws = s.draws := rfl

/-! ### `releaseAcc` -/

@[simp] theorem releaseAcc_cfg (s : State) :
    (releaseAcc s).cfg = s.cfg := rfl
@[simp] theorem releaseAcc_ie (s : State) :
    (releaseAcc s).ie = s.ie := rfl
@[simp] theorem releaseAcc_busy (s : State) :
    (releaseAcc s).busy = s.busy := rfl
@[simp] theorem releaseAcc_done (s : State) :
    (releaseAcc s).done = s.done := rfl
@[simp] theorem releaseAcc_ovr (s : State) :
    (releaseAcc s).ovr = s.ovr := rfl
@[simp] theorem releaseAcc_code (s : State) :
    (releaseAcc s).code = s.code := rfl
@[simp] theorem releaseAcc_cmd (s : State) :
    (releaseAcc s).cmd = s.cmd := rfl
@[simp] theorem releaseAcc_inLen (s : State) :
    (releaseAcc s).inLen = s.inLen := rfl
@[simp] theorem releaseAcc_outCap (s : State) :
    (releaseAcc s).outCap = s.outCap := rfl
@[simp] theorem releaseAcc_result (s : State) :
    (releaseAcc s).result = s.result := rfl
@[simp] theorem releaseAcc_inBuf (s : State) :
    (releaseAcc s).inBuf = s.inBuf := rfl
@[simp] theorem releaseAcc_outBuf (s : State) :
    (releaseAcc s).outBuf = s.outBuf := rfl
@[simp] theorem releaseAcc_latCmd (s : State) :
    (releaseAcc s).latCmd = s.latCmd := rfl
@[simp] theorem releaseAcc_latInLen (s : State) :
    (releaseAcc s).latInLen = s.latInLen := rfl
@[simp] theorem releaseAcc_latOutCap (s : State) :
    (releaseAcc s).latOutCap = s.latOutCap := rfl
@[simp] theorem releaseAcc_acc (s : State) :
    (releaseAcc s).acc = Config.freeAcc s.draws % 2 ^ s.cfg.accBits := rfl
@[simp] theorem releaseAcc_resetIn (s : State) :
    (releaseAcc s).resetIn = s.resetIn := rfl
@[simp] theorem releaseAcc_script (s : State) :
    (releaseAcc s).script = s.script := rfl
@[simp] theorem releaseAcc_pos (s : State) :
    (releaseAcc s).pos = s.pos := rfl
@[simp] theorem releaseAcc_temp (s : State) :
    (releaseAcc s).temp = s.temp := rfl
@[simp] theorem releaseAcc_wait (s : State) :
    (releaseAcc s).wait = s.wait := rfl
@[simp] theorem releaseAcc_delays (s : State) :
    (releaseAcc s).delays = s.delays := rfl
@[simp] theorem releaseAcc_draws (s : State) :
    (releaseAcc s).draws = s.draws + 1 := rfl

/-! ### `acceptCmd` -/

@[simp] theorem acceptCmd_cfg (v : Word) (s : State) :
    (acceptCmd v s).cfg = s.cfg := rfl
@[simp] theorem acceptCmd_ie (v : Word) (s : State) :
    (acceptCmd v s).ie = s.ie := rfl
@[simp] theorem acceptCmd_busy (v : Word) (s : State) :
    (acceptCmd v s).busy = s.busy := rfl
@[simp] theorem acceptCmd_done (v : Word) (s : State) :
    (acceptCmd v s).done = false := rfl
@[simp] theorem acceptCmd_ovr (v : Word) (s : State) :
    (acceptCmd v s).ovr = s.ovr := rfl
@[simp] theorem acceptCmd_code (v : Word) (s : State) :
    (acceptCmd v s).code = .ok := rfl
@[simp] theorem acceptCmd_cmd (v : Word) (s : State) :
    (acceptCmd v s).cmd = v := rfl
@[simp] theorem acceptCmd_inLen (v : Word) (s : State) :
    (acceptCmd v s).inLen = s.inLen := rfl
@[simp] theorem acceptCmd_outCap (v : Word) (s : State) :
    (acceptCmd v s).outCap = s.outCap := rfl
@[simp] theorem acceptCmd_result (v : Word) (s : State) :
    (acceptCmd v s).result = 0#32 := rfl
@[simp] theorem acceptCmd_inBuf (v : Word) (s : State) :
    (acceptCmd v s).inBuf = s.inBuf := rfl
@[simp] theorem acceptCmd_outBuf (v : Word) (s : State) :
    (acceptCmd v s).outBuf = s.outBuf := rfl
@[simp] theorem acceptCmd_latCmd (v : Word) (s : State) :
    (acceptCmd v s).latCmd = s.latCmd := rfl
@[simp] theorem acceptCmd_latInLen (v : Word) (s : State) :
    (acceptCmd v s).latInLen = s.latInLen := rfl
@[simp] theorem acceptCmd_latOutCap (v : Word) (s : State) :
    (acceptCmd v s).latOutCap = s.latOutCap := rfl
@[simp] theorem acceptCmd_acc (v : Word) (s : State) :
    (acceptCmd v s).acc = s.acc := rfl
@[simp] theorem acceptCmd_resetIn (v : Word) (s : State) :
    (acceptCmd v s).resetIn = s.resetIn := rfl
@[simp] theorem acceptCmd_script (v : Word) (s : State) :
    (acceptCmd v s).script = s.script := rfl
@[simp] theorem acceptCmd_pos (v : Word) (s : State) :
    (acceptCmd v s).pos = s.pos := rfl
@[simp] theorem acceptCmd_temp (v : Word) (s : State) :
    (acceptCmd v s).temp = s.temp := rfl
@[simp] theorem acceptCmd_wait (v : Word) (s : State) :
    (acceptCmd v s).wait = s.wait := rfl
@[simp] theorem acceptCmd_delays (v : Word) (s : State) :
    (acceptCmd v s).delays = s.delays := rfl
@[simp] theorem acceptCmd_draws (v : Word) (s : State) :
    (acceptCmd v s).draws = s.draws := rfl

/-! ### `illegalCmd` -/

@[simp] theorem illegalCmd_cfg (s : State) :
    (illegalCmd s).cfg = s.cfg := rfl
@[simp] theorem illegalCmd_ie (s : State) :
    (illegalCmd s).ie = s.ie := rfl
@[simp] theorem illegalCmd_busy (s : State) :
    (illegalCmd s).busy = s.busy := rfl
@[simp] theorem illegalCmd_done (s : State) :
    (illegalCmd s).done = true := rfl
@[simp] theorem illegalCmd_ovr (s : State) :
    (illegalCmd s).ovr = s.ovr := rfl
@[simp] theorem illegalCmd_code (s : State) :
    (illegalCmd s).code = .illegalCommand := rfl
@[simp] theorem illegalCmd_cmd (s : State) :
    (illegalCmd s).cmd = s.cmd := rfl
@[simp] theorem illegalCmd_inLen (s : State) :
    (illegalCmd s).inLen = s.inLen := rfl
@[simp] theorem illegalCmd_outCap (s : State) :
    (illegalCmd s).outCap = s.outCap := rfl
@[simp] theorem illegalCmd_result (s : State) :
    (illegalCmd s).result = 0#32 := rfl
@[simp] theorem illegalCmd_inBuf (s : State) :
    (illegalCmd s).inBuf = s.inBuf := rfl
@[simp] theorem illegalCmd_outBuf (s : State) :
    (illegalCmd s).outBuf = s.outBuf := rfl
@[simp] theorem illegalCmd_latCmd (s : State) :
    (illegalCmd s).latCmd = s.latCmd := rfl
@[simp] theorem illegalCmd_latInLen (s : State) :
    (illegalCmd s).latInLen = s.latInLen := rfl
@[simp] theorem illegalCmd_latOutCap (s : State) :
    (illegalCmd s).latOutCap = s.latOutCap := rfl
@[simp] theorem illegalCmd_acc (s : State) :
    (illegalCmd s).acc = s.acc := rfl
@[simp] theorem illegalCmd_resetIn (s : State) :
    (illegalCmd s).resetIn = s.resetIn := rfl
@[simp] theorem illegalCmd_script (s : State) :
    (illegalCmd s).script = s.script := rfl
@[simp] theorem illegalCmd_pos (s : State) :
    (illegalCmd s).pos = s.pos := rfl
@[simp] theorem illegalCmd_temp (s : State) :
    (illegalCmd s).temp = s.temp := rfl
@[simp] theorem illegalCmd_wait (s : State) :
    (illegalCmd s).wait = s.wait := rfl
@[simp] theorem illegalCmd_delays (s : State) :
    (illegalCmd s).delays = s.delays := rfl
@[simp] theorem illegalCmd_draws (s : State) :
    (illegalCmd s).draws = s.draws := rfl

/-! ### `latchCmd` -/

@[simp] theorem latchCmd_cfg (v : Word) (s : State) :
    (latchCmd v s).cfg = s.cfg := rfl
@[simp] theorem latchCmd_ie (v : Word) (s : State) :
    (latchCmd v s).ie = s.ie := rfl
@[simp] theorem latchCmd_busy (v : Word) (s : State) :
    (latchCmd v s).busy = true := rfl
@[simp] theorem latchCmd_done (v : Word) (s : State) :
    (latchCmd v s).done = s.done := rfl
@[simp] theorem latchCmd_ovr (v : Word) (s : State) :
    (latchCmd v s).ovr = s.ovr := rfl
@[simp] theorem latchCmd_code (v : Word) (s : State) :
    (latchCmd v s).code = s.code := rfl
@[simp] theorem latchCmd_cmd (v : Word) (s : State) :
    (latchCmd v s).cmd = s.cmd := rfl
@[simp] theorem latchCmd_inLen (v : Word) (s : State) :
    (latchCmd v s).inLen = s.inLen := rfl
@[simp] theorem latchCmd_outCap (v : Word) (s : State) :
    (latchCmd v s).outCap = s.outCap := rfl
@[simp] theorem latchCmd_result (v : Word) (s : State) :
    (latchCmd v s).result = s.result := rfl
@[simp] theorem latchCmd_inBuf (v : Word) (s : State) :
    (latchCmd v s).inBuf = s.inBuf := rfl
@[simp] theorem latchCmd_outBuf (v : Word) (s : State) :
    (latchCmd v s).outBuf = s.outBuf := rfl
@[simp] theorem latchCmd_latCmd (v : Word) (s : State) :
    (latchCmd v s).latCmd = v := rfl
@[simp] theorem latchCmd_latInLen (v : Word) (s : State) :
    (latchCmd v s).latInLen = s.inLen := rfl
@[simp] theorem latchCmd_latOutCap (v : Word) (s : State) :
    (latchCmd v s).latOutCap = s.outCap := rfl
@[simp] theorem latchCmd_acc (v : Word) (s : State) :
    (latchCmd v s).acc = s.acc := rfl
@[simp] theorem latchCmd_resetIn (v : Word) (s : State) :
    (latchCmd v s).resetIn = s.resetIn := rfl
@[simp] theorem latchCmd_script (v : Word) (s : State) :
    (latchCmd v s).script = s.script := rfl
@[simp] theorem latchCmd_pos (v : Word) (s : State) :
    (latchCmd v s).pos = s.pos := rfl
@[simp] theorem latchCmd_temp (v : Word) (s : State) :
    (latchCmd v s).temp = s.temp := rfl
@[simp] theorem latchCmd_wait (v : Word) (s : State) :
    (latchCmd v s).wait = s.wait := rfl
@[simp] theorem latchCmd_delays (v : Word) (s : State) :
    (latchCmd v s).delays = s.delays := rfl
@[simp] theorem latchCmd_draws (v : Word) (s : State) :
    (latchCmd v s).draws = s.draws := rfl

/-! ### `startCmd` -/

@[simp] theorem startCmd_cfg (v : Word) (s : State) :
    (startCmd v s).cfg = s.cfg := rfl
@[simp] theorem startCmd_ie (v : Word) (s : State) :
    (startCmd v s).ie = s.ie := rfl
@[simp] theorem startCmd_busy (v : Word) (s : State) :
    (startCmd v s).busy = true := rfl
@[simp] theorem startCmd_done (v : Word) (s : State) :
    (startCmd v s).done = s.done := rfl
@[simp] theorem startCmd_ovr (v : Word) (s : State) :
    (startCmd v s).ovr = s.ovr := rfl
@[simp] theorem startCmd_code (v : Word) (s : State) :
    (startCmd v s).code = s.code := rfl
@[simp] theorem startCmd_cmd (v : Word) (s : State) :
    (startCmd v s).cmd = s.cmd := rfl
@[simp] theorem startCmd_inLen (v : Word) (s : State) :
    (startCmd v s).inLen = s.inLen := rfl
@[simp] theorem startCmd_outCap (v : Word) (s : State) :
    (startCmd v s).outCap = s.outCap := rfl
@[simp] theorem startCmd_result (v : Word) (s : State) :
    (startCmd v s).result = s.result := rfl
@[simp] theorem startCmd_inBuf (v : Word) (s : State) :
    (startCmd v s).inBuf = s.inBuf := rfl
@[simp] theorem startCmd_outBuf (v : Word) (s : State) :
    (startCmd v s).outBuf = s.outBuf := rfl
@[simp] theorem startCmd_latCmd (v : Word) (s : State) :
    (startCmd v s).latCmd = v := rfl
@[simp] theorem startCmd_latInLen (v : Word) (s : State) :
    (startCmd v s).latInLen = s.inLen := rfl
@[simp] theorem startCmd_latOutCap (v : Word) (s : State) :
    (startCmd v s).latOutCap = s.outCap := rfl
@[simp] theorem startCmd_acc (v : Word) (s : State) :
    (startCmd v s).acc = s.acc := rfl
@[simp] theorem startCmd_resetIn (v : Word) (s : State) :
    (startCmd v s).resetIn = s.resetIn := rfl
@[simp] theorem startCmd_script (v : Word) (s : State) :
    (startCmd v s).script = s.script := rfl
@[simp] theorem startCmd_pos (v : Word) (s : State) :
    (startCmd v s).pos = s.pos := rfl
@[simp] theorem startCmd_temp (v : Word) (s : State) :
    (startCmd v s).temp = s.temp := rfl
@[simp] theorem startCmd_wait (v : Word) (s : State) :
    (startCmd v s).wait = nextDelay s := rfl
@[simp] theorem startCmd_delays (v : Word) (s : State) :
    (startCmd v s).delays = s.delays.tail := rfl
@[simp] theorem startCmd_draws (v : Word) (s : State) :
    (startCmd v s).draws = s.draws + 1 := rfl

/-! ### `dropWrite` -/

@[simp] theorem dropWrite_cfg (s : State) :
    (dropWrite s).cfg = s.cfg := rfl
@[simp] theorem dropWrite_ie (s : State) :
    (dropWrite s).ie = s.ie := rfl
@[simp] theorem dropWrite_busy (s : State) :
    (dropWrite s).busy = s.busy := rfl
@[simp] theorem dropWrite_done (s : State) :
    (dropWrite s).done = s.done := rfl
@[simp] theorem dropWrite_ovr (s : State) :
    (dropWrite s).ovr = true := rfl
@[simp] theorem dropWrite_code (s : State) :
    (dropWrite s).code = s.code := rfl
@[simp] theorem dropWrite_cmd (s : State) :
    (dropWrite s).cmd = s.cmd := rfl
@[simp] theorem dropWrite_inLen (s : State) :
    (dropWrite s).inLen = s.inLen := rfl
@[simp] theorem dropWrite_outCap (s : State) :
    (dropWrite s).outCap = s.outCap := rfl
@[simp] theorem dropWrite_result (s : State) :
    (dropWrite s).result = s.result := rfl
@[simp] theorem dropWrite_inBuf (s : State) :
    (dropWrite s).inBuf = s.inBuf := rfl
@[simp] theorem dropWrite_outBuf (s : State) :
    (dropWrite s).outBuf = s.outBuf := rfl
@[simp] theorem dropWrite_latCmd (s : State) :
    (dropWrite s).latCmd = s.latCmd := rfl
@[simp] theorem dropWrite_latInLen (s : State) :
    (dropWrite s).latInLen = s.latInLen := rfl
@[simp] theorem dropWrite_latOutCap (s : State) :
    (dropWrite s).latOutCap = s.latOutCap := rfl
@[simp] theorem dropWrite_acc (s : State) :
    (dropWrite s).acc = s.acc := rfl
@[simp] theorem dropWrite_resetIn (s : State) :
    (dropWrite s).resetIn = s.resetIn := rfl
@[simp] theorem dropWrite_script (s : State) :
    (dropWrite s).script = s.script := rfl
@[simp] theorem dropWrite_pos (s : State) :
    (dropWrite s).pos = s.pos := rfl
@[simp] theorem dropWrite_temp (s : State) :
    (dropWrite s).temp = s.temp := rfl
@[simp] theorem dropWrite_wait (s : State) :
    (dropWrite s).wait = s.wait := rfl
@[simp] theorem dropWrite_delays (s : State) :
    (dropWrite s).delays = s.delays := rfl
@[simp] theorem dropWrite_draws (s : State) :
    (dropWrite s).draws = s.draws := rfl

/-! ### `clearStatus` -/

@[simp] theorem clearStatus_cfg (v : Word) (s : State) :
    (clearStatus v s).cfg = s.cfg := rfl
@[simp] theorem clearStatus_ie (v : Word) (s : State) :
    (clearStatus v s).ie = s.ie := rfl
@[simp] theorem clearStatus_busy (v : Word) (s : State) :
    (clearStatus v s).busy = s.busy := rfl
@[simp] theorem clearStatus_done (v : Word) (s : State) :
    (clearStatus v s).done = (s.done && !v.getLsbD 1) := rfl
@[simp] theorem clearStatus_ovr (v : Word) (s : State) :
    (clearStatus v s).ovr = (s.ovr && !v.getLsbD 2) := rfl
@[simp] theorem clearStatus_code (v : Word) (s : State) :
    (clearStatus v s).code = s.code := rfl
@[simp] theorem clearStatus_cmd (v : Word) (s : State) :
    (clearStatus v s).cmd = s.cmd := rfl
@[simp] theorem clearStatus_inLen (v : Word) (s : State) :
    (clearStatus v s).inLen = s.inLen := rfl
@[simp] theorem clearStatus_outCap (v : Word) (s : State) :
    (clearStatus v s).outCap = s.outCap := rfl
@[simp] theorem clearStatus_result (v : Word) (s : State) :
    (clearStatus v s).result = s.result := rfl
@[simp] theorem clearStatus_inBuf (v : Word) (s : State) :
    (clearStatus v s).inBuf = s.inBuf := rfl
@[simp] theorem clearStatus_outBuf (v : Word) (s : State) :
    (clearStatus v s).outBuf = s.outBuf := rfl
@[simp] theorem clearStatus_latCmd (v : Word) (s : State) :
    (clearStatus v s).latCmd = s.latCmd := rfl
@[simp] theorem clearStatus_latInLen (v : Word) (s : State) :
    (clearStatus v s).latInLen = s.latInLen := rfl
@[simp] theorem clearStatus_latOutCap (v : Word) (s : State) :
    (clearStatus v s).latOutCap = s.latOutCap := rfl
@[simp] theorem clearStatus_acc (v : Word) (s : State) :
    (clearStatus v s).acc = s.acc := rfl
@[simp] theorem clearStatus_resetIn (v : Word) (s : State) :
    (clearStatus v s).resetIn = s.resetIn := rfl
@[simp] theorem clearStatus_script (v : Word) (s : State) :
    (clearStatus v s).script = s.script := rfl
@[simp] theorem clearStatus_pos (v : Word) (s : State) :
    (clearStatus v s).pos = s.pos := rfl
@[simp] theorem clearStatus_temp (v : Word) (s : State) :
    (clearStatus v s).temp = s.temp := rfl
@[simp] theorem clearStatus_wait (v : Word) (s : State) :
    (clearStatus v s).wait = s.wait := rfl
@[simp] theorem clearStatus_delays (v : Word) (s : State) :
    (clearStatus v s).delays = s.delays := rfl
@[simp] theorem clearStatus_draws (v : Word) (s : State) :
    (clearStatus v s).draws = s.draws := rfl

/-! ### `writeCtrl` -/

@[simp] theorem writeCtrl_cfg (v : Word) (s : State) :
    (writeCtrl v s).cfg = s.cfg := rfl
@[simp] theorem writeCtrl_ie (v : Word) (s : State) :
    (writeCtrl v s).ie = v.getLsbD 0 := rfl
@[simp] theorem writeCtrl_busy (v : Word) (s : State) :
    (writeCtrl v s).busy = s.busy := rfl
@[simp] theorem writeCtrl_done (v : Word) (s : State) :
    (writeCtrl v s).done = s.done := rfl
@[simp] theorem writeCtrl_ovr (v : Word) (s : State) :
    (writeCtrl v s).ovr = s.ovr := rfl
@[simp] theorem writeCtrl_code (v : Word) (s : State) :
    (writeCtrl v s).code = s.code := rfl
@[simp] theorem writeCtrl_cmd (v : Word) (s : State) :
    (writeCtrl v s).cmd = s.cmd := rfl
@[simp] theorem writeCtrl_inLen (v : Word) (s : State) :
    (writeCtrl v s).inLen = s.inLen := rfl
@[simp] theorem writeCtrl_outCap (v : Word) (s : State) :
    (writeCtrl v s).outCap = s.outCap := rfl
@[simp] theorem writeCtrl_result (v : Word) (s : State) :
    (writeCtrl v s).result = s.result := rfl
@[simp] theorem writeCtrl_inBuf (v : Word) (s : State) :
    (writeCtrl v s).inBuf = s.inBuf := rfl
@[simp] theorem writeCtrl_outBuf (v : Word) (s : State) :
    (writeCtrl v s).outBuf = s.outBuf := rfl
@[simp] theorem writeCtrl_latCmd (v : Word) (s : State) :
    (writeCtrl v s).latCmd = s.latCmd := rfl
@[simp] theorem writeCtrl_latInLen (v : Word) (s : State) :
    (writeCtrl v s).latInLen = s.latInLen := rfl
@[simp] theorem writeCtrl_latOutCap (v : Word) (s : State) :
    (writeCtrl v s).latOutCap = s.latOutCap := rfl
@[simp] theorem writeCtrl_acc (v : Word) (s : State) :
    (writeCtrl v s).acc = s.acc := rfl
@[simp] theorem writeCtrl_resetIn (v : Word) (s : State) :
    (writeCtrl v s).resetIn = s.resetIn := rfl
@[simp] theorem writeCtrl_script (v : Word) (s : State) :
    (writeCtrl v s).script = s.script := rfl
@[simp] theorem writeCtrl_pos (v : Word) (s : State) :
    (writeCtrl v s).pos = s.pos := rfl
@[simp] theorem writeCtrl_temp (v : Word) (s : State) :
    (writeCtrl v s).temp = s.temp := rfl
@[simp] theorem writeCtrl_wait (v : Word) (s : State) :
    (writeCtrl v s).wait = s.wait := rfl
@[simp] theorem writeCtrl_delays (v : Word) (s : State) :
    (writeCtrl v s).delays = s.delays := rfl
@[simp] theorem writeCtrl_draws (v : Word) (s : State) :
    (writeCtrl v s).draws = s.draws := rfl

/-! ### `nextLine` -/

@[simp] theorem nextLine_cfg (s : State) :
    (nextLine s).cfg = s.cfg := rfl
@[simp] theorem nextLine_ie (s : State) :
    (nextLine s).ie = s.ie := rfl
@[simp] theorem nextLine_busy (s : State) :
    (nextLine s).busy = s.busy := rfl
@[simp] theorem nextLine_done (s : State) :
    (nextLine s).done = s.done := rfl
@[simp] theorem nextLine_ovr (s : State) :
    (nextLine s).ovr = s.ovr := rfl
@[simp] theorem nextLine_code (s : State) :
    (nextLine s).code = s.code := rfl
@[simp] theorem nextLine_cmd (s : State) :
    (nextLine s).cmd = s.cmd := rfl
@[simp] theorem nextLine_inLen (s : State) :
    (nextLine s).inLen = s.inLen := rfl
@[simp] theorem nextLine_outCap (s : State) :
    (nextLine s).outCap = s.outCap := rfl
@[simp] theorem nextLine_result (s : State) :
    (nextLine s).result = s.result := rfl
@[simp] theorem nextLine_inBuf (s : State) :
    (nextLine s).inBuf = s.inBuf := rfl
@[simp] theorem nextLine_outBuf (s : State) :
    (nextLine s).outBuf = s.outBuf := rfl
@[simp] theorem nextLine_latCmd (s : State) :
    (nextLine s).latCmd = s.latCmd := rfl
@[simp] theorem nextLine_latInLen (s : State) :
    (nextLine s).latInLen = s.latInLen := rfl
@[simp] theorem nextLine_latOutCap (s : State) :
    (nextLine s).latOutCap = s.latOutCap := rfl
@[simp] theorem nextLine_acc (s : State) :
    (nextLine s).acc = s.acc := rfl
@[simp] theorem nextLine_resetIn (s : State) :
    (nextLine s).resetIn = s.resetIn := rfl
@[simp] theorem nextLine_script (s : State) :
    (nextLine s).script = s.script := rfl
@[simp] theorem nextLine_pos (s : State) :
    (nextLine s).pos = s.pos + 1 := rfl
@[simp] theorem nextLine_temp (s : State) :
    (nextLine s).temp = s.temp := rfl
@[simp] theorem nextLine_wait (s : State) :
    (nextLine s).wait = s.wait := rfl
@[simp] theorem nextLine_delays (s : State) :
    (nextLine s).delays = s.delays := rfl
@[simp] theorem nextLine_draws (s : State) :
    (nextLine s).draws = s.draws := rfl

/-! ### `blockReset` -/

@[simp] theorem blockReset_cfg (s : State) : (blockReset s).cfg = s.cfg := rfl
@[simp] theorem blockReset_ie (s : State) : (blockReset s).ie = State.reset.ie := rfl
@[simp] theorem blockReset_busy (s : State) : (blockReset s).busy = State.reset.busy := rfl
@[simp] theorem blockReset_done (s : State) : (blockReset s).done = State.reset.done := rfl
@[simp] theorem blockReset_ovr (s : State) : (blockReset s).ovr = State.reset.ovr := rfl
@[simp] theorem blockReset_code (s : State) : (blockReset s).code = State.reset.code := rfl
@[simp] theorem blockReset_cmd (s : State) : (blockReset s).cmd = State.reset.cmd := rfl
@[simp] theorem blockReset_inLen (s : State) : (blockReset s).inLen = State.reset.inLen := rfl
@[simp] theorem blockReset_outCap (s : State) : (blockReset s).outCap = State.reset.outCap := rfl
@[simp] theorem blockReset_result (s : State) : (blockReset s).result = State.reset.result := rfl
@[simp] theorem blockReset_inBuf (s : State) : (blockReset s).inBuf = State.reset.inBuf := rfl
@[simp] theorem blockReset_outBuf (s : State) : (blockReset s).outBuf = State.reset.outBuf := rfl
@[simp] theorem blockReset_latCmd (s : State) : (blockReset s).latCmd = State.reset.latCmd := rfl
@[simp] theorem blockReset_latInLen (s : State) : (blockReset s).latInLen = State.reset.latInLen := rfl
@[simp] theorem blockReset_latOutCap (s : State) : (blockReset s).latOutCap = State.reset.latOutCap := rfl
@[simp] theorem blockReset_acc (s : State) : (blockReset s).acc = State.reset.acc := rfl
@[simp] theorem blockReset_resetIn (s : State) : (blockReset s).resetIn = State.reset.resetIn := rfl
@[simp] theorem blockReset_script (s : State) : (blockReset s).script = s.script := rfl
@[simp] theorem blockReset_pos (s : State) : (blockReset s).pos = s.pos := rfl
@[simp] theorem blockReset_temp (s : State) : (blockReset s).temp = s.temp := rfl
@[simp] theorem blockReset_wait (s : State) : (blockReset s).wait = State.reset.wait := rfl
@[simp] theorem blockReset_delays (s : State) : (blockReset s).delays = s.delays := rfl
@[simp] theorem blockReset_draws (s : State) : (blockReset s).draws = s.draws := rfl

/-! ### `tick` and `afterRead` -/

@[simp] theorem tick_cfg (s : State) : (tick s).cfg = s.cfg := by
  unfold tick; split <;> rfl
@[simp] theorem tick_ie (s : State) : (tick s).ie = s.ie := by
  unfold tick; split <;> rfl
@[simp] theorem tick_busy (s : State) : (tick s).busy = s.busy := by
  unfold tick; split <;> rfl
@[simp] theorem tick_done (s : State) : (tick s).done = s.done := by
  unfold tick; split <;> rfl
@[simp] theorem tick_ovr (s : State) : (tick s).ovr = s.ovr := by
  unfold tick; split <;> rfl
@[simp] theorem tick_code (s : State) : (tick s).code = s.code := by
  unfold tick; split <;> rfl
@[simp] theorem tick_cmd (s : State) : (tick s).cmd = s.cmd := by
  unfold tick; split <;> rfl
@[simp] theorem tick_inLen (s : State) : (tick s).inLen = s.inLen := by
  unfold tick; split <;> rfl
@[simp] theorem tick_outCap (s : State) : (tick s).outCap = s.outCap := by
  unfold tick; split <;> rfl
@[simp] theorem tick_result (s : State) : (tick s).result = s.result := by
  unfold tick; split <;> rfl
@[simp] theorem tick_inBuf (s : State) : (tick s).inBuf = s.inBuf := by
  unfold tick; split <;> rfl
@[simp] theorem tick_outBuf (s : State) : (tick s).outBuf = s.outBuf := by
  unfold tick; split <;> rfl
@[simp] theorem tick_latCmd (s : State) : (tick s).latCmd = s.latCmd := by
  unfold tick; split <;> rfl
@[simp] theorem tick_latInLen (s : State) : (tick s).latInLen = s.latInLen := by
  unfold tick; split <;> rfl
@[simp] theorem tick_latOutCap (s : State) : (tick s).latOutCap = s.latOutCap := by
  unfold tick; split <;> rfl
@[simp] theorem tick_acc (s : State) : (tick s).acc = s.acc := by
  unfold tick; split <;> rfl
@[simp] theorem tick_resetIn (s : State) : (tick s).resetIn = s.resetIn := by
  unfold tick; split <;> rfl
@[simp] theorem tick_script (s : State) : (tick s).script = s.script := by
  unfold tick; split <;> rfl
@[simp] theorem tick_pos (s : State) : (tick s).pos = s.pos := by
  unfold tick; split <;> rfl
@[simp] theorem tick_temp (s : State) : (tick s).temp = s.temp := by
  unfold tick; split <;> rfl
@[simp] theorem tick_delays (s : State) : (tick s).delays = s.delays := by
  unfold tick; split <;> rfl
@[simp] theorem tick_draws (s : State) : (tick s).draws = s.draws := by
  unfold tick; split <;> rfl
@[simp] theorem tick_wait (s : State) : (tick s).wait = if s.busy then s.wait - 1 else s.wait := by
  unfold tick; split <;> rfl
@[simp] theorem afterRead_cfg (w : Width) (off : Nat) (s : State) : (afterRead w off s).cfg = s.cfg := by
  unfold afterRead; split <;> rfl
@[simp] theorem afterRead_ie (w : Width) (off : Nat) (s : State) : (afterRead w off s).ie = s.ie := by
  unfold afterRead; split <;> rfl
@[simp] theorem afterRead_busy (w : Width) (off : Nat) (s : State) : (afterRead w off s).busy = s.busy := by
  unfold afterRead; split <;> rfl
@[simp] theorem afterRead_done (w : Width) (off : Nat) (s : State) : (afterRead w off s).done = s.done := by
  unfold afterRead; split <;> rfl
@[simp] theorem afterRead_ovr (w : Width) (off : Nat) (s : State) : (afterRead w off s).ovr = s.ovr := by
  unfold afterRead; split <;> rfl
@[simp] theorem afterRead_code (w : Width) (off : Nat) (s : State) : (afterRead w off s).code = s.code := by
  unfold afterRead; split <;> rfl
@[simp] theorem afterRead_cmd (w : Width) (off : Nat) (s : State) : (afterRead w off s).cmd = s.cmd := by
  unfold afterRead; split <;> rfl
@[simp] theorem afterRead_inLen (w : Width) (off : Nat) (s : State) : (afterRead w off s).inLen = s.inLen := by
  unfold afterRead; split <;> rfl
@[simp] theorem afterRead_outCap (w : Width) (off : Nat) (s : State) : (afterRead w off s).outCap = s.outCap := by
  unfold afterRead; split <;> rfl
@[simp] theorem afterRead_result (w : Width) (off : Nat) (s : State) : (afterRead w off s).result = s.result := by
  unfold afterRead; split <;> rfl
@[simp] theorem afterRead_inBuf (w : Width) (off : Nat) (s : State) : (afterRead w off s).inBuf = s.inBuf := by
  unfold afterRead; split <;> rfl
@[simp] theorem afterRead_outBuf (w : Width) (off : Nat) (s : State) : (afterRead w off s).outBuf = s.outBuf := by
  unfold afterRead; split <;> rfl
@[simp] theorem afterRead_latCmd (w : Width) (off : Nat) (s : State) : (afterRead w off s).latCmd = s.latCmd := by
  unfold afterRead; split <;> rfl
@[simp] theorem afterRead_latInLen (w : Width) (off : Nat) (s : State) : (afterRead w off s).latInLen = s.latInLen := by
  unfold afterRead; split <;> rfl
@[simp] theorem afterRead_latOutCap (w : Width) (off : Nat) (s : State) : (afterRead w off s).latOutCap = s.latOutCap := by
  unfold afterRead; split <;> rfl
@[simp] theorem afterRead_acc (w : Width) (off : Nat) (s : State) : (afterRead w off s).acc = s.acc := by
  unfold afterRead; split <;> rfl
@[simp] theorem afterRead_resetIn (w : Width) (off : Nat) (s : State) : (afterRead w off s).resetIn = s.resetIn := by
  unfold afterRead; split <;> rfl
@[simp] theorem afterRead_script (w : Width) (off : Nat) (s : State) : (afterRead w off s).script = s.script := by
  unfold afterRead; split <;> rfl
@[simp] theorem afterRead_pos (w : Width) (off : Nat) (s : State) : (afterRead w off s).pos = s.pos := by
  unfold afterRead; split <;> rfl
@[simp] theorem afterRead_temp (w : Width) (off : Nat) (s : State) : (afterRead w off s).temp = s.temp := by
  unfold afterRead; split <;> rfl
@[simp] theorem afterRead_wait (w : Width) (off : Nat) (s : State) : (afterRead w off s).wait = s.wait := by
  unfold afterRead; split <;> rfl
@[simp] theorem afterRead_delays (w : Width) (off : Nat) (s : State) : (afterRead w off s).delays = s.delays := by
  unfold afterRead; split <;> rfl

end Sys2Proof.Machine
end

