-- ==== Sys2Proof/Laws/Commands.lean ====
section
/-! SUPPORT. Everything COMPLETE can do, said once for all ten commands (spec/40_command.md R79). -/

namespace Sys2Proof.Machine

/-- What the command's unit does last: a positional command releases the accumulator. -/
def settle (i : Instr) (u : State) : State := if i.positional then releaseAcc u else u

@[simp] theorem settle_cfg (i : Instr) (u : State) : (settle i u).cfg = u.cfg := by unfold settle; split <;> rfl
@[simp] theorem settle_ie (i : Instr) (u : State) : (settle i u).ie = u.ie := by unfold settle; split <;> rfl
@[simp] theorem settle_busy (i : Instr) (u : State) : (settle i u).busy = u.busy := by unfold settle; split <;> rfl
@[simp] theorem settle_done (i : Instr) (u : State) : (settle i u).done = u.done := by unfold settle; split <;> rfl
@[simp] theorem settle_ovr (i : Instr) (u : State) : (settle i u).ovr = u.ovr := by unfold settle; split <;> rfl
@[simp] theorem settle_code (i : Instr) (u : State) : (settle i u).code = u.code := by unfold settle; split <;> rfl
@[simp] theorem settle_cmd (i : Instr) (u : State) : (settle i u).cmd = u.cmd := by unfold settle; split <;> rfl
@[simp] theorem settle_inLen (i : Instr) (u : State) : (settle i u).inLen = u.inLen := by unfold settle; split <;> rfl
@[simp] theorem settle_outCap (i : Instr) (u : State) : (settle i u).outCap = u.outCap := by unfold settle; split <;> rfl
@[simp] theorem settle_result (i : Instr) (u : State) : (settle i u).result = u.result := by unfold settle; split <;> rfl
@[simp] theorem settle_inBuf (i : Instr) (u : State) : (settle i u).inBuf = u.inBuf := by unfold settle; split <;> rfl
@[simp] theorem settle_outBuf (i : Instr) (u : State) : (settle i u).outBuf = u.outBuf := by unfold settle; split <;> rfl
@[simp] theorem settle_latCmd (i : Instr) (u : State) : (settle i u).latCmd = u.latCmd := by unfold settle; split <;> rfl
@[simp] theorem settle_latInLen (i : Instr) (u : State) : (settle i u).latInLen = u.latInLen := by unfold settle; split <;> rfl
@[simp] theorem settle_latOutCap (i : Instr) (u : State) : (settle i u).latOutCap = u.latOutCap := by unfold settle; split <;> rfl
@[simp] theorem settle_resetIn (i : Instr) (u : State) : (settle i u).resetIn = u.resetIn := by unfold settle; split <;> rfl
@[simp] theorem settle_script (i : Instr) (u : State) : (settle i u).script = u.script := by unfold settle; split <;> rfl
@[simp] theorem settle_pos (i : Instr) (u : State) : (settle i u).pos = u.pos := by unfold settle; split <;> rfl
@[simp] theorem settle_temp (i : Instr) (u : State) : (settle i u).temp = u.temp := by unfold settle; split <;> rfl
@[simp] theorem settle_wait (i : Instr) (u : State) : (settle i u).wait = u.wait := by unfold settle; split <;> rfl
@[simp] theorem settle_delays (i : Instr) (u : State) : (settle i u).delays = u.delays := by unfold settle; split <;> rfl
theorem settle_acc (i : Instr) (u : State) (h : i.positional = false) : (settle i u).acc = u.acc := by simp [settle, h]

theorem eOut_pos (i : Instr) : 0 < i.eOut := by cases i <;> simp [Instr.eOut]

/-- Each command is COMPLETE over its own element sizes and functions. -/
theorem exec_eq (i : Instr) (s : State) :
    exec i s = (if i.positional then andReleaseAcc else id)
      (complete i.eIn i.eOut (commandQuery s.cfg i) (commandFill s.cfg i) i.mode s) := by
  cases i <;> rfl

/-- Out of range: INVALID_LENGTH, before anything is read (spec/40_command.md R78). -/
theorem exec_out_of_range {i : Instr} {s : State} (h : s.latInLen.toNat * i.eIn > s.cfg.inSize) :
    exec i s = .next (settle i (finish .invalidLength s.latInLen.toNat s)) := by
  rw [exec_eq, complete, if_pos h, settle]
  cases i.positional <;> rfl

/-- An unwritten input byte: UNINIT_READ. -/
theorem exec_unwritten {i : Instr} {s : State} (h : s.latInLen.toNat * i.eIn ≤ s.cfg.inSize)
    (hx : inElems s.inBuf i.eIn s.latInLen.toNat = none) : exec i s = .fault .uninitRead := by
  rw [exec_eq, complete, if_neg (Nat.not_lt.2 h)]
  simp only [hx]
  cases i.positional <;> rfl

/-- A query over written input. -/
theorem exec_query {i : Instr} {s : State} {x : List Nat} (hm : i.mode = .query)
    (h : s.latInLen.toNat * i.eIn ≤ s.cfg.inSize) (hx : inElems s.inBuf i.eIn s.latInLen.toNat = some x) :
    exec i s = .next (settle i (completeQuery (commandQuery s.cfg i x) s)) := by
  rw [exec_eq, complete, if_neg (Nat.not_lt.2 h)]
  simp only [hx, hm, settle]
  cases i.positional <;> rfl

/-- A fill over written input. -/
theorem exec_fill {i : Instr} {s : State} {x : List Nat} (hm : i.mode = .fill)
    (h : s.latInLen.toNat * i.eIn ≤ s.cfg.inSize) (hx : inElems s.inBuf i.eIn s.latInLen.toNat = some x) :
    exec i s = .next (settle i (completeFill i.eOut (commandFill s.cfg i x) s)) := by
  rw [exec_eq, complete, if_neg (Nat.not_lt.2 h)]
  simp only [hx, hm, settle]
  cases i.positional <;> rfl

/-- The four ways a command goes. -/
theorem exec_forms (i : Instr) (s : State) :
    (s.latInLen.toNat * i.eIn > s.cfg.inSize ∧
      exec i s = .next (settle i (finish .invalidLength s.latInLen.toNat s))) ∨
    (s.latInLen.toNat * i.eIn ≤ s.cfg.inSize ∧
      ((inElems s.inBuf i.eIn s.latInLen.toNat = none ∧ exec i s = .fault .uninitRead) ∨
       ∃ x, inElems s.inBuf i.eIn s.latInLen.toNat = some x ∧
        ((i.mode = .query ∧ exec i s = .next (settle i (completeQuery (commandQuery s.cfg i x) s))) ∨
         (i.mode = .fill ∧ exec i s = .next (settle i (completeFill i.eOut (commandFill s.cfg i x) s)))))) := by
  by_cases h : s.latInLen.toNat * i.eIn > s.cfg.inSize
  · exact .inl ⟨h, exec_out_of_range h⟩
  · refine .inr ⟨by omega, ?_⟩
    cases hx : inElems s.inBuf i.eIn s.latInLen.toNat with
    | none => exact .inl ⟨rfl, exec_unwritten (by omega) hx⟩
    | some x =>
      refine .inr ⟨x, rfl, ?_⟩
      cases hm : i.mode with
      | query => exact .inl ⟨rfl, exec_query hm (by omega) hx⟩
      | fill => exact .inr ⟨rfl, exec_fill hm (by omega) hx⟩

/-! ### Which errors the command functions answer (spec/60_exceptions.md R151) -/

theorem map_err {α β : Type} {f : α → β} {a : Answer α} {c : StatusCode} {k : Nat}
    (h : a.map f = .err c k) : a = .err c k := by
  cases a with
  | err c' k' => simpa [Answer.map] using h
  | ok x => simp [Answer.map] at h

theorem digitValues_err_code {alphabet : List Byte} {i : Nat} {text : List Nat} {c : StatusCode} {k : Nat}
    (h : digitValues alphabet i text = .err c k) : c = .invalidSymbol ∧ i ≤ k ∧ k < i + text.length := by
  rcases digitValues_cases alphabet i text with ⟨ds, h1, _⟩ | ⟨j, hj, h1⟩
  · simp [h] at h1
  · rw [h] at h1; cases h1; exact ⟨rfl, by omega, by omega⟩

theorem commandQuery_err {c : Config} {i : Instr} {x : List Nat} {code : StatusCode} {info : Nat}
    (h : commandQuery c i x = .err code info) :
    code = .invalidSymbol ∨ (code = .invalidLength ∧ info = x.length) := by
  cases i with
  | p58Dec m => exact .inl (digitValues_err_code (map_err h)).1
  | p6Dec m => exact .inl (digitValues_err_code (map_err h)).1
  | b64Dec m =>
    simp only [commandQuery, queryB64Dec] at h
    split at h
    · cases h; exact .inr ⟨rfl, rfl⟩
    · simp at h
  | _ => simp [commandQuery, queryP58Enc, queryP6Enc, queryB64Enc] at h

theorem commandFill_err {c : Config} {i : Instr} {x : List Nat} {code : StatusCode} {info : Nat}
    (h : commandFill c i x = .err code info) :
    code = .invalidSymbol ∨ (code = .invalidLength ∧ info = x.length) := by
  cases i with
  | p58Dec m => exact .inl (digitValues_err_code (map_err h)).1
  | p6Dec m => exact .inl (digitValues_err_code (map_err h)).1
  | b64Dec m =>
    simp only [commandFill, fillB64Dec] at h
    split at h
    · cases h; exact .inr ⟨rfl, rfl⟩
    · exact .inl (digitValues_err_code (map_err h)).1
  | _ => simp [commandFill, fillP58Enc, fillP6Enc, fillB64Enc] at h

/-- Everything a command that has a next state can have done: it finished with some code the block produces and touched
nothing but STATUS and RESULT, or it is a fill whose output fits and has written it. -/
theorem exec_cases {i : Instr} {s t : State} (h : exec i s = .next t) :
    (∃ code info, t = settle i (finish code info s) ∧
      code ∈ [.ok, .invalidSymbol, .outputTooSmall, .invalidLength] ∧ (code = .ok → i.mode = .query)) ∨
    (∃ elems, i.mode = .fill ∧ elems.length ≤ capacity i.eOut s ∧
      t = settle i (finish .ok elems.length { s with outBuf := outElems s.outBuf i.eOut elems })) := by
  rcases exec_forms i s with ⟨_, he⟩ | ⟨_, ⟨_, he⟩ | ⟨x, _, ⟨hm, he⟩ | ⟨hm, he⟩⟩⟩
  · rw [he] at h; cases h
    exact .inl ⟨_, _, rfl, by simp, by simp⟩
  · rw [he] at h; cases h
  · rw [he] at h; cases h
    refine .inl ?_
    cases ha : commandQuery s.cfg i x with
    | ok len => exact ⟨.ok, len, rfl, by simp, fun _ => hm⟩
    | err code info =>
      refine ⟨code, info, rfl, ?_, ?_⟩ <;> rcases commandQuery_err ha with rfl | ⟨rfl, _⟩ <;> simp
  · rw [he] at h; cases h
    cases ha : commandFill s.cfg i x with
    | ok elems =>
      simp only [completeFill]
      split
      · exact .inl ⟨.outputTooSmall, elems.length, rfl, by simp, by simp⟩
      · exact .inr ⟨elems, hm, by omega, rfl⟩
    | err code info =>
      refine .inl ⟨code, info, rfl, ?_, ?_⟩ <;> rcases commandFill_err ha with rfl | ⟨rfl, _⟩ <;> simp

/-- The elements a command computes with, from its input bytes (spec/20_memory.md R46). -/
def elementsOf (e n : Nat) (bytes : List Byte) : List Nat :=
  (List.range n).map fun i => leValue ((bytes.drop (i * e)).take e)

theorem elementsOf_one (n : Nat) (bytes : List Byte) (h : n = bytes.length) :
    elementsOf 1 n bytes = bytes.map BitVec.toNat := by
  subst h
  refine List.ext_getElem (by simp [elementsOf]) fun k h1 h2 => ?_
  simp only [List.length_map] at h2
  simp only [elementsOf, List.getElem_map, List.getElem_range, Nat.mul_one]
  rw [List.drop_eq_getElem_cons h2, List.take_succ_cons, List.take_zero]
  simp [leValue]

theorem inElems_of_inputIs {s : State} {e : Nat} {bytes : List Byte} (h : InputIs s e bytes) :
    s.latInLen.toNat * e ≤ s.cfg.inSize ∧
      inElems s.inBuf e s.latInLen.toNat = some (elementsOf e s.latInLen.toNat bytes) :=
  ⟨h.1 ▸ h.2.1, inElems_of_bytes _ _ _ _ h.1.symm h.2.2⟩

/-- What the query and the fill functions answer decides both modes of a command. -/
theorem completesWith_of {cmd : Mode → Instr} {s : State} {e len : Nat} {input bytes : List Byte} {elems : List Nat}
    (hin : InputIs s e input) (hm : ∀ m, (cmd m).mode = m) (he : ∀ m, (cmd m).eIn = e)
    (hq : commandQuery s.cfg (cmd .query) (elementsOf e s.latInLen.toNat input) = .ok len)
    (hf : commandFill s.cfg (cmd .fill) (elementsOf e s.latInLen.toNat input) = .ok elems)
    (hl : elems.length = len) (hb : bytes.length = len * (cmd .fill).eOut)
    (hbytes : ∀ a (h : a < bytes.length),
      byteAt (elems.getD (a / (cmd .fill).eOut) 0) (a % (cmd .fill).eOut) = bytes[a]) :
    CompletesWith cmd s len bytes := by
  obtain ⟨h1, h2⟩ := inElems_of_inputIs hin
  have eq := exec_query (i := cmd .query) (s := s) (hm _) (by rw [he]; exact h1) (by rw [he]; exact h2)
  have ef := exec_fill (i := cmd .fill) (s := s) (hm _) (by rw [he]; exact h1) (by rw [he]; exact h2)
  rw [hq] at eq
  rw [hf] at ef
  refine ⟨⟨_, eq, by simp [completeQuery, endedWith], by simp [completeQuery]⟩, fun hc => ⟨_, ef, ?_⟩,
    fun hc => ⟨_, ef, ?_⟩⟩
  · simp only [completeFill, hl, if_neg (Nat.not_lt.2 hc)]
    refine ⟨by simp [endedWith], fun a => ?_⟩
    simp only [settle_outBuf, finish_outBuf]
    rw [read_outElems _ _ _ _ (eOut_pos _), hl, ← hb]
    split
    · rename_i ha; rw [hbytes a ha]
    · rfl
  · simp only [completeFill, hl, gt_iff_lt, if_pos hc]
    simp [endedWith]

/-- An error of the query and the fill function ends the command with it. -/
theorem failsWith_of {i : Instr} {s : State} {e info : Nat} {input : List Byte} {code : StatusCode}
    (hin : InputIs s e input) (he : i.eIn = e)
    (hq : i.mode = .query → commandQuery s.cfg i (elementsOf e s.latInLen.toNat input) = .err code info)
    (hf : i.mode = .fill → commandFill s.cfg i (elementsOf e s.latInLen.toNat input) = .err code info) :
    FailsWith i s code info := by
  obtain ⟨h1, h2⟩ := inElems_of_inputIs hin
  cases hm : i.mode with
  | query =>
    have eq := exec_query (i := i) (s := s) hm (by rw [he]; exact h1) (by rw [he]; exact h2)
    rw [hq hm] at eq
    exact ⟨_, eq, by simp [completeQuery, endedWith], by simp [completeQuery]⟩
  | fill =>
    have ef := exec_fill (i := i) (s := s) hm (by rw [he]; exact h1) (by rw [he]; exact h2)
    rw [hf hm] at ef
    exact ⟨_, ef, by simp [completeFill, endedWith], by simp [completeFill]⟩

end Sys2Proof.Machine
end

