-- ==== Sys2Proof/Laws/PerInstr.lean ====
section
/-! SUPPORT. What holds of each command's word, command by command. -/

namespace Sys2Proof.Laws.EncodedWord

/-- The word of a command has no reserved bit set (spec/30_encoding.md R58), a UNIT in use (R60), and FILL as its
mode says (R61). -/
def Statement (i : Instr) : Prop :=
  encode i &&& reservedMask = 0#32 ∧ i.Wf ∧ fillField (encode i) = i.mode

theorem p58Enc (m : Mode) : Statement (.p58Enc m) := by
  unfold Statement; cases m <;> decide
theorem p58Dec (m : Mode) : Statement (.p58Dec m) := by
  unfold Statement; cases m <;> decide
theorem p6Enc (m : Mode) : Statement (.p6Enc m) := by
  unfold Statement; cases m <;> decide
theorem p6Dec (m : Mode) : Statement (.p6Dec m) := by
  unfold Statement; cases m <;> decide
theorem b64Enc (m : Mode) : Statement (.b64Enc m) := by
  unfold Statement; cases m <;> decide
theorem b64Dec (m : Mode) : Statement (.b64Dec m) := by
  unfold Statement; cases m <;> decide
theorem pack8To32 (m : Mode) : Statement (.pack8To32 m) := by
  unfold Statement; cases m <;> decide
theorem unpack32To8 (m : Mode) : Statement (.unpack32To8 m) := by
  unfold Statement; cases m <;> decide
theorem pack16To32 (m : Mode) : Statement (.pack16To32 m) := by
  unfold Statement; cases m <;> decide
theorem unpack32To16 (m : Mode) : Statement (.unpack32To16 m) := by
  unfold Statement; cases m <;> decide

end Sys2Proof.Laws.EncodedWord
end

