-- ==== Sys2Proof/Laws/Step.lean ====
section
/-! SUPPORT. Everything one step can do (spec/00_scope.md R14, spec/40_command.md R72). -/

namespace Sys2Proof.Machine

/-- A step is a reset, a COMPLETE or a host step. -/
theorem step_cases {s t : State} (h : step s = .next t) :
    (s.resetIn = true ∧ t = blockReset s) ∨
    (s.resetIn = false ∧ engineTurn s = true ∧ ∃ i, decode s.latCmd = .ok i ∧ exec i s = .next t) ∨
    (s.resetIn = false ∧ engineTurn s = false ∧ hostStep s = .next t) := by
  unfold step at h
  split at h
  · cases h; simp_all
  · split at h
    · split at h
      · simp_all
      · cases h
    · simp_all

/-- A host line is a write, a read, or only moves the position. -/
theorem runLine_cases {l : HostLine} {s t : State} (h : runLine l s = .next t) :
    (∃ w off d u, l = .write w off d ∧ busWrite w off (dataOf d s) s = .next u ∧ t = nextLine u) ∨
    (∃ w off v, l = .read w off ∧ busRead w off s = .ok v ∧ t = nextLine { afterRead w off s with temp := v }) ∨
    (∃ p, t = { s with pos := p }) := by
  have hj : ∀ k, jumpTo k s = .next t → ∃ p, t = { s with pos := p } := by
    intro k hk
    unfold jumpTo at hk
    split at hk
    · cases hk; exact ⟨_, rfl⟩
    · cases hk
  cases l with
  | write w off d =>
    simp only [runLine, runWrite] at h
    split at h
    · cases h; exact .inl ⟨w, off, d, _, rfl, by assumption, rfl⟩
    · cases h
    · cases h
  | read w off =>
    simp only [runLine, runRead] at h
    split at h
    · cases h; exact .inr (.inl ⟨w, off, _, rfl, by assumption, rfl⟩)
    · cases h
  | bit k l =>
    simp only [runLine] at h
    split at h
    · exact .inr (.inr (hj _ h))
    · cases h; exact .inr (.inr ⟨_, rfl⟩)
  | bnz l =>
    simp only [runLine] at h
    split at h
    · cases h; exact .inr (.inr ⟨_, rfl⟩)
    · exact .inr (.inr (hj _ h))
  | jmp l => exact .inr (.inr (hj _ h))
  | label n => simp only [runLine] at h; cases h; exact .inr (.inr ⟨_, rfl⟩)
  | halt => simp only [runLine] at h; cases h; exact .inr (.inr ⟨s.pos, rfl⟩)

/-- A host step runs the line at its position after the delay has gone down by one, or does nothing. -/
theorem hostStep_cases {s t : State} (h : hostStep s = .next t) :
    (s.script[s.pos]? = none ∧ t = s) ∨
    (∃ l, s.script[s.pos]? = some l ∧ runLine l (tick s) = .next t) := by
  unfold hostStep at h
  split at h
  · cases h; simp_all
  · exact .inr ⟨_, by assumption, h⟩

end Sys2Proof.Machine
end

