-- ==== Sys2Proof/Tests/Slice0.lean ====
section
/-! SUPPORT. The model's own tests: command words written out from the spec's encoding, well-formedness, one step on a
small state, and for every statement with hypotheses a state and operands that meet them. -/

namespace Sys2Proof.Tests

open Sys2Proof Sys2Proof.Machine

/-! ### Command words (spec/30_encoding.md R58, R63; spec/95_test_vectors.md 2.1)

The words read `00000000000000000000000F0UUU000D`. -/

theorem test_decode_p58Enc : decode 0b00000000000000000000000000010000#32 = .ok (.p58Enc .query) := by decide
theorem test_decode_p58Dec : decode 0b00000000000000000000000100010001#32 = .ok (.p58Dec .fill) := by decide
theorem test_decode_p6Enc : decode 0b00000000000000000000000100100000#32 = .ok (.p6Enc .fill) := by decide
theorem test_decode_p6Dec : decode 0b00000000000000000000000000100001#32 = .ok (.p6Dec .query) := by decide
theorem test_decode_b64Enc : decode 0b00000000000000000000000000110000#32 = .ok (.b64Enc .query) := by decide
theorem test_decode_b64Dec : decode 0b00000000000000000000000100110001#32 = .ok (.b64Dec .fill) := by decide
theorem test_decode_pack8To32 : decode 0b00000000000000000000000101000000#32 = .ok (.pack8To32 .fill) := by decide
theorem test_decode_unpack32To8 : decode 0b00000000000000000000000001000001#32 = .ok (.unpack32To8 .query) := by decide
theorem test_decode_pack16To32 : decode 0b00000000000000000000000001010000#32 = .ok (.pack16To32 .query) := by decide
theorem test_decode_unpack32To16 : decode 0b00000000000000000000000101010001#32 = .ok (.unpack32To16 .fill) := by decide

/-- UNIT 0, 6 and 7 are reserved; 0 is what CMD resets to (R66, R67). -/
theorem test_decode_reserved_units :
    [0x000#32, 0x001#32, 0x101#32, 0x060#32, 0x070#32, 0x171#32].all
      (fun v => decode v == .error .reservedUnit) = true := by decide

/-- One word for each end of each reserved field: bits 1, 3, 7, 9 and 31 (R66). -/
theorem test_decode_reserved_bits :
    [0x012#32, 0x018#32, 0x090#32, 0x210#32, 0x80000010#32].all
      (fun v => decode v == .error .reservedBits) = true := by decide

/-- The two bytes of a fill word as the bus carries them, with the bytes after the word left alone (R45, R68). -/
theorem test_decode_bytes :
    decodeBytes [0x10#8, 0x01#8, 0x00#8, 0x00#8, 0xAA#8] = .ok (.p58Enc .fill, [0xAA#8]) := by decide

theorem test_decode_truncated : decodeBytes [0x10#8, 0x01#8, 0x00#8] = .error .truncated := by decide

theorem test_table_word : decodeTableWord 32 0x00000151 = some (.unpack32To16 .fill) := by decide

theorem test_table_word_illegal : decodeTableWord 32 0x00000210 = none := by decide

/-- spec/30_encoding.md R69's example, and the illegal form. -/
theorem test_disassemble : disassemble 0x110#32 = "P58.ENC.F" ∧ disassemble 0x210#32 = ".illegal 0x00000210" := by
  decide

/-! ### Well-formedness (spec/00_scope.md R5, spec/30_encoding.md R70) -/

/-- A legal instance that is small: 16 bytes in each buffer. -/
def tiny : Config := { defaultConfig with inSize := 16, outSize := 16, accBits := 128 }

theorem test_wf_default : defaultConfig.Wf := by decide
theorem tiny_alphabets : tiny.AlphabetsOk := by decide
theorem test_wf_tiny : tiny.Wf := ⟨by decide, by decide, by decide, tiny_alphabets⟩
theorem test_wf_largest : ({ defaultConfig with inSize := 65536, outSize := 65536, accBits := 524288 } : Config).Wf := by
  decide
theorem test_illformed_inSize_multiple : ¬ ({ tiny with inSize := 14 } : Config).Wf := by decide
theorem test_illformed_inSize_small : ¬ ({ tiny with inSize := 0 } : Config).Wf := by decide
theorem test_illformed_outSize_large : ¬ ({ tiny with outSize := 65540 } : Config).Wf := by decide
theorem test_illformed_accBits : ¬ ({ tiny with accBits := 127 } : Config).Wf := by decide
theorem test_illformed_alpha58 : ¬ ({ tiny with alpha58 := Vector.replicate 58 0x31#8 } : Config).Wf := by decide
theorem test_illformed_alpha6 : ¬ ({ tiny with alpha6 := Vector.replicate 6 0x30#8 } : Config).Wf := by decide
theorem test_illformed_alpha64 : ¬ ({ tiny with alpha64 := Vector.replicate 64 0x41#8 } : Config).Wf := by decide
theorem test_illformed_pad : ¬ ({ tiny with pad64 := 0x41#8 } : Config).Wf := by decide

theorem test_wf_commands : (Instr.p58Enc .query).Wf ∧ (Instr.unpack32To16 .fill).Wf := by decide

/-- A script with every kind of line (R70). -/
theorem test_wf_script : scriptWf [.write .w8 0x10000 (.imm 0xFF#32), .write .w32 0x014 .temp, .label 1, .read .w32 0x008,
    .bit 1 2, .bnz 1, .jmp 1, .label 2, .halt] := by decide
theorem test_illformed_twice_label : ¬ scriptWf [.label 1, .label 1] := by decide
theorem test_illformed_no_label : ¬ scriptWf [.label 1, .jmp 2] := by decide
theorem test_illformed_offset : ¬ scriptWf [.read .w8 0x30000] := by decide
theorem test_illformed_write_offset : ¬ scriptWf [.write .w8 0x30000 .temp] := by decide
theorem test_illformed_constant : ¬ scriptWf [.write .w8 0x10000 (.imm 0x100#32)] := by decide

/-! ### One step of each command (spec/95_test_vectors.md 2.2 to 2.6) -/

/-- Written bytes from offset `a` on. -/
def bytesFrom : Nat → List Byte → Memory
  | _, [] => []
  | a, b :: rest => (a, b) :: bytesFrom (a + 1) rest

/-- The small instance with `bytes` in IN_BUF, IN_LEN = n and OUT_CAP = cap, and one old byte in OUT_BUF. -/
def ready (n cap : Nat) (bytes : List Byte) : State :=
  { State.reset with
    cfg := tiny, inLen := BitVec.ofNat 32 n, outCap := BitVec.ofNat 32 cap
    inBuf := bytesFrom 0 bytes, outBuf := [(7, 0xEE#8)] }

/-- CODE, RESULT and the written bytes of OUT_BUF after a step. -/
def shown (o : Host.Outcome State Fault Refusal) : Option (StatusCode × Nat × Memory) :=
  match o with
  | .next t => some (t.code, t.result.toNat, t.outBuf)
  | .fault _ => none
  | .refused _ => none

/-- The step that runs command word `w`. -/
def ran (w n cap : Nat) (bytes : List Byte) : Option (StatusCode × Nat × Memory) :=
  shown (step ((ready n cap bytes).withFetchWord 32 w))

/-- "115Q" (S2). -/
theorem test_p58Enc : ran 0x110 3 16 [0x00#8, 0x00#8, 0xFF#8] =
    some (.ok, 4, [(0, 0x31#8), (1, 0x31#8), (2, 0x35#8), (3, 0x51#8), (7, 0xEE#8)]) := by decide

/-- The frame errors of 2.6: three symbols into a capacity of two; a query of the same. -/
theorem test_p58Enc_capacity : ran 0x110 3 2 [0x00#8, 0x00#8, 0x01#8] = some (.outputTooSmall, 3, [(7, 0xEE#8)]) ∧
    ran 0x010 3 2 [0x00#8, 0x00#8, 0x01#8] = some (.ok, 3, [(7, 0xEE#8)]) := by decide

/-- "21" is 3A. -/
theorem test_p58Dec : ran 0x111 2 16 [0x32#8, 0x31#8] = some (.ok, 1, [(0, 0x3A#8), (7, 0xEE#8)]) := by decide

/-- "1z0": the symbol is reported before the capacity (S4). -/
theorem test_p58Dec_symbol : ran 0x111 3 0 [0x31#8, 0x7A#8, 0x30#8] = some (.invalidSymbol, 2, [(7, 0xEE#8)]) := by
  decide

/-- "1103" (R91). -/
theorem test_p6Enc : ran 0x120 1 16 [0xFF#8] =
    some (.ok, 4, [(0, 0x31#8), (1, 0x31#8), (2, 0x30#8), (3, 0x33#8), (7, 0xEE#8)]) := by decide

/-- A leading zero byte adds no symbol, and an all-zero payload gives none (R91, R99). -/
theorem test_p6Enc_zeros : ran 0x020 2 0 [0x00#8, 0x01#8] = some (.ok, 1, [(7, 0xEE#8)]) ∧
    ran 0x120 2 0 [0x00#8, 0x00#8] = some (.ok, 0, [(7, 0xEE#8)]) := by decide

/-- "11013" is 05 F1 (R92). -/
theorem test_p6Dec : ran 0x121 5 2 [0x31#8, 0x31#8, 0x30#8, 0x31#8, 0x33#8] =
    some (.ok, 2, [(0, 0x05#8), (1, 0xF1#8), (7, 0xEE#8)]) := by decide

/-- "1a" and "0" (S4, R99). -/
theorem test_p6Dec_corners : ran 0x021 2 0 [0x31#8, 0x61#8] = some (.invalidSymbol, 1, [(7, 0xEE#8)]) ∧
    ran 0x121 1 0 [0x30#8] = some (.ok, 0, [(7, 0xEE#8)]) := by decide

/-- "TWE=" (S3). -/
theorem test_b64Enc : ran 0x130 2 4 [0x4D#8, 0x61#8] =
    some (.ok, 4, [(0, 0x54#8), (1, 0x57#8), (2, 0x45#8), (3, 0x3D#8), (7, 0xEE#8)]) := by decide

/-- "AAAA": padding is placed by the length, never by a symbol's value (R101). -/
theorem test_b64Enc_structural : ran 0x130 3 4 [0x00#8, 0x00#8, 0x00#8] =
    some (.ok, 4, [(0, 0x41#8), (1, 0x41#8), (2, 0x41#8), (3, 0x41#8), (7, 0xEE#8)]) := by decide

/-- "AB==" is 00: the discarded bits are not checked (R102). -/
theorem test_b64Dec : ran 0x131 4 1 [0x41#8, 0x42#8, 0x3D#8, 0x3D#8] = some (.ok, 1, [(0, 0x00#8), (7, 0xEE#8)]) := by
  decide

/-- "TW=u": the query answers a length, the fill the index of the early padding byte (R102). -/
theorem test_b64Dec_symbol : ran 0x031 4 0 [0x54#8, 0x57#8, 0x3D#8, 0x75#8] = some (.ok, 3, [(7, 0xEE#8)]) ∧
    ran 0x131 4 0 [0x54#8, 0x57#8, 0x3D#8, 0x75#8] = some (.invalidSymbol, 2, [(7, 0xEE#8)]) := by decide

/-- 01 02 03 04 05 is two lanes (R111). -/
theorem test_pack8To32 : ran 0x140 5 2 [0x01#8, 0x02#8, 0x03#8, 0x04#8, 0x05#8] =
    some (.ok, 2, [(0, 0x01#8), (1, 0x02#8), (2, 0x03#8), (3, 0x04#8), (4, 0x05#8), (5, 0x00#8), (6, 0x00#8),
      (7, 0x00#8)]) := by decide

/-- OUT_CAP counts lanes (2.6). -/
theorem test_pack8To32_capacity : ran 0x140 5 1 [0x01#8, 0x02#8, 0x03#8, 0x04#8, 0x05#8] =
    some (.outputTooSmall, 2, [(7, 0xEE#8)]) := by decide

/-- Only the top lane is trimmed, here to nothing (R112). -/
theorem test_unpack32To8 : ran 0x141 2 16 [0x05#8, 0x00#8, 0x00#8, 0x00#8, 0x00#8, 0x00#8, 0x00#8, 0x00#8] =
    some (.ok, 4, [(0, 0x05#8), (1, 0x00#8), (2, 0x00#8), (3, 0x00#8), (7, 0xEE#8)]) := by decide

/-- The lane 0x00FF0000 keeps three bytes (2.5). -/
theorem test_unpack32To8_trim : ran 0x141 1 16 [0x00#8, 0x00#8, 0xFF#8, 0x00#8] =
    some (.ok, 3, [(0, 0x00#8), (1, 0x00#8), (2, 0xFF#8), (7, 0xEE#8)]) := by decide

/-- [0xFFFF, 0xFFFF, 0x0001] (R113). -/
theorem test_pack16To32 : ran 0x150 3 2 [0xFF#8, 0xFF#8, 0xFF#8, 0xFF#8, 0x01#8, 0x00#8] =
    some (.ok, 2, [(0, 0xFF#8), (1, 0xFF#8), (2, 0xFF#8), (3, 0xFF#8), (4, 0x01#8), (5, 0x00#8), (6, 0x00#8),
      (7, 0x00#8)]) := by decide

/-- The range check counts bytes: 9 lanes of two are 18 (R78). -/
theorem test_pack16To32_range : ran 0x150 9 16 [] = some (.invalidLength, 9, [(7, 0xEE#8)]) := by decide

/-- [0x00000100] is trimmed by 16-bit sub-lane (R114). -/
theorem test_unpack32To16 : ran 0x151 1 16 [0x00#8, 0x01#8, 0x00#8, 0x00#8] =
    some (.ok, 1, [(0, 0x00#8), (1, 0x01#8), (7, 0xEE#8)]) := by decide

/-- The product with the element size does not wrap (2.6). -/
theorem test_unpack32To16_range : ran 0x151 0xFFFFFFFF 16 [] = some (.invalidLength, 0xFFFFFFFF, [(7, 0xEE#8)]) := by
  decide

/-- IN_LEN 3 with the third byte unwritten (2.6). -/
theorem test_unwritten_input :
    exec (.p58Enc .query) (placeLegal 0x010#32 (ready 3 0 [0x01#8, 0x02#8])) = .fault .uninitRead := rfl

/-- An illegal word is the next host write to CMD and ends in that step (2.1). -/
theorem test_illegal_word : ran 0x060 0 0 [] = some (.illegalCommand, 0, [(7, 0xEE#8)]) := by decide

/-- The default instance runs a word placed at reset. -/
theorem test_runs_from_reset : shown (step (State.reset.withFetchWord 32 0x110)) = some (.ok, 0, []) := by decide

/-! ### Registers and windows (spec/95_test_vectors.md 2.7) -/

theorem test_reset_reads : busRead .w32 0x000 State.reset = .ok 0x42544B01#32 ∧
    busRead .w32 0x01C State.reset = .ok 0x00001000#32 ∧ busRead .w32 0x020 State.reset = .ok 0x00004000#32 ∧
    busRead .w32 0x00C State.reset = .ok 0#32 ∧ busRead .w32 0xFFFC State.reset = .ok 0#32 := by decide

theorem test_not_performed_reads : busRead .w16 0x008 State.reset = .ok 0#32 ∧
    busRead .w32 0x10002 State.reset = .ok 0#32 ∧ busRead .w32 0x11000 State.reset = .ok 0#32 ∧
    busRead .w8 0x10000 State.reset = .error .uninitRead := by decide

theorem test_mixed_width : busRead .w32 0x10000 (ready 0 0 [0x01#8, 0x02#8, 0x03#8, 0x04#8]) = .ok 0x04030201#32 ∧
    busRead .w16 0x10002 (ready 0 0 [0x01#8, 0x02#8, 0x03#8, 0x04#8]) = .ok 0x0403#32 := by decide

/-- DONE = 1 and OVR = 1, with CODE = 5. -/
def finished : State := { ready 0 0 [] with done := true, ovr := true, code := .invalidLength }

theorem test_status_word : statusWord finished = 0x00000506#32 := by decide

theorem test_acknowledge : (clearStatus 0x2#32 finished).done = false ∧ (clearStatus 0x2#32 finished).ovr = true ∧
    (clearStatus 0x4#32 finished).done = true ∧ (clearStatus 0x4#32 finished).ovr = false := by decide

theorem test_irq_follows_enable : irq finished = false ∧ irq (writeCtrl 0x1#32 finished) = true := by decide

/-- The list of bus transactions is the encoding of a script (R70): here a W8 of the temporary, of which the low byte goes. -/
theorem test_transaction :
    transaction (.write .w8 0x10000 .temp) 0x1234#32 = some ⟨Config.base + 0x10000, .w8, some 0x34#32⟩ := by rfl

/-- LDIN and QF of R71, written out as program P1 of spec/95_test_vectors.md writes them. -/
theorem test_pseudo :
    pseudoLdIn [0x00#8, 0x01#8] = [.write .w8 0x10000 (.imm 0x00#32), .write .w8 0x10001 (.imm 0x01#32)] ∧
    pseudoQueryFill .p58Enc 1 2 3 4 =
      [.write .w32 0x0000C (.imm 0x10#32), .label 1, .read .w32 0x00008, .bit 1 2, .jmp 1, .label 2]
      ++ [.read .w32 0x00018, .write .w32 0x00014 .temp]
      ++ [.write .w32 0x0000C (.imm 0x110#32), .label 3, .read .w32 0x00008, .bit 1 4, .jmp 3, .label 4] := by decide

/-! ### States that meet the statements' hypotheses

One theorem for a statement, named after it; each conjunct meets all the hypotheses of one of its clauses together. -/

/-- Command word w just issued, with its COMPLETE next. -/
def issued (w : Word) (n cap : Nat) (bytes : List Byte) : State := placeLegal w (ready n cap bytes)

/-- The small instance about to run a host script. -/
def scripted (p : List HostLine) : State := { ready 4 8 [0x01#8, 0x02#8, 0x03#8, 0x04#8] with script := p }

/-- A host that runs a line while P58.ENC.F runs, two host steps before its COMPLETE. -/
def waiting (l : HostLine) : State :=
  { issued 0x110#32 3 3 [0x00#8, 0x00#8, 0x01#8] with wait := 2, script := [l, .halt] }

theorem wit_ResetInputRestoresBlock : ({ waiting .halt with resetIn := true } : State).resetIn = true := by decide

theorem wit_DecodeReadsFields : decode 0x010#32 = .ok (.p58Enc .query) ∧ decode 0x151#32 = .ok (.unpack32To16 .fill) := by
  decide

theorem wit_StepRunsLatchedCommand :
    ((issued 0x110#32 0 0 []).resetIn = false ∧ engineTurn (issued 0x110#32 0 0 []) = true ∧
      decode (issued 0x110#32 0 0 []).latCmd = .ok (.p58Enc .fill)) ∧
    ((waiting .halt).resetIn = false ∧ engineTurn (waiting .halt) = true ∧
      decode (waiting .halt).latCmd = .ok (.p58Enc .fill)) ∧
    ((waiting (.label 0)).resetIn = false ∧ engineTurn (waiting (.label 0)) = false) ∧
    decode 0x051#32 = .ok (.unpack32To16 .query) := by decide

theorem wit_HostLinesRun :
    (HostRuns (scripted [.write .w8 0x10001 .temp]) (.write .w8 0x10001 .temp) ∧
      ∃ u, busWrite .w8 0x10001 (dataOf .temp (scripted [.write .w8 0x10001 .temp]))
        (tick (scripted [.write .w8 0x10001 .temp])) = .next u) ∧
    (HostRuns (scripted [.read .w32 0x10000]) (.read .w32 0x10000) ∧
      busRead .w32 0x10000 (scripted [.read .w32 0x10000]) = .ok 0x04030201#32) ∧
    (HostRuns (scripted [.bit 31 5, .label 5]) (.bit 31 5) ∧ labelIndex [.bit 31 5, .label 5] 5 = some 1) ∧
    (HostRuns (scripted [.bnz 5, .label 5]) (.bnz 5) ∧ labelIndex [.bnz 5, .label 5] 5 = some 1) ∧
    (HostRuns (scripted [.jmp 5, .label 5]) (.jmp 5) ∧ labelIndex [.jmp 5, .label 5] 5 = some 1) ∧
    HostRuns (scripted [.label 5]) (.label 5) ∧
    HostRuns (waiting (.read .w32 0x008)) (.read .w32 0x008) :=
  ⟨⟨⟨rfl, rfl, rfl⟩, _, rfl⟩, ⟨⟨rfl, rfl, rfl⟩, rfl⟩, ⟨⟨rfl, rfl, rfl⟩, rfl⟩, ⟨⟨rfl, rfl, rfl⟩, rfl⟩,
    ⟨⟨rfl, rfl, rfl⟩, rfl⟩, ⟨rfl, rfl, rfl⟩, ⟨rfl, rfl, rfl⟩⟩

/-- A machine about to issue B64.DEC.F, whose COMPLETE comes at once. -/
def issuing : State := { scripted [.write .w32 0x00C (.imm 0x131#32)] with delays := [0] }

theorem wit_IssueThenComplete :
    HostRuns issuing (.write .w32 0x00C (.imm 0x131#32)) ∧ issuing.busy = false ∧
      decode 0x131#32 = .ok (.b64Dec .fill) ∧ issuing.delays = 0 :: [] :=
  ⟨⟨rfl, rfl, rfl⟩, by decide⟩

/-- An ended run, and a script at HALT with a command still running. -/
theorem wit_EndedRunStays :
    (({ finished with script := [.halt] } : State).resetIn = false ∧ runEnded { finished with script := [.halt] } = true) ∧
    ((scripted [.halt]).busy = false ∧ (waiting .halt).busy = true ∧ (waiting .halt).script[(waiting .halt).pos]? = some .halt) := by
  decide

theorem wit_LegalCmdWriteStarts : finished.busy = false ∧ legal 0x010#32 = true ∧ legal 0x151#32 = true := by decide

theorem wit_IllegalCmdWriteEnds : finished.busy = false ∧ legal 0x000#32 = false ∧ legal 0x80000010#32 = false := by decide

theorem wit_BusyLockDropsWrites : (waiting .halt).busy = true ∧
    (15 < 0x10000 ∧ 15 % Width.w8.bytes = 0 ∧ 15 + Width.w8.bytes ≤ (waiting .halt).cfg.inSize) ∧
    (12 < 0x10000 ∧ 12 % Width.w32.bytes = 0 ∧ 12 + Width.w32.bytes ≤ (waiting .halt).cfg.outSize) ∧
    ([0x000, 0x018, 0x01C, 0x020, 0x024, 0xFFFC].all fun off =>
      decide (off < 0x10000 ∧ off % 4 = 0 ∧ off ∉ [0x004, 0x008, 0x00C, 0x010, 0x014])) = true := by decide

theorem wit_CtrlWriteSetsEnable :
    ∃ t, exec (.p6Enc .fill) (issued 0x120#32 1 4 [0xFF#8]) = .next t := ⟨_, rfl⟩

/-- Each of the five codes, and bits at both ends of the reserved fields of STATUS. -/
theorem wit_RegisterReads :
    ([StatusCode.ok, .invalidSymbol, .outputTooSmall, .invalidLength, .illegalCommand].map fun c =>
      ({ finished with code := c } : State).code) = [.ok, .invalidSymbol, .outputTooSmall, .invalidLength, .illegalCommand] ∧
    ([3, 7, 12, 31].all fun k => decide (3 ≤ k ∧ (k < 8 ∨ 12 ≤ k))) = true := by decide

theorem wit_LengthRegistersStore : finished.busy = false := by decide

theorem wit_ReadOnlyAndReserved :
    ([0x000, 0x018, 0x01C, 0x020, 0x024, 0xFFFC].all fun off =>
      decide (off < 0x10000 ∧ off % 4 = 0 ∧ off ∉ [0x004, 0x008, 0x00C, 0x010, 0x014])) = true ∧
    ([0x024, 0xFFFC].all fun off => decide (0x024 ≤ off ∧ off < 0x10000 ∧ off % 4 = 0)) = true := by decide

theorem wit_NarrowRegisterAccess :
    (0x00C < 0x10000 ∧ (Width.w16 ≠ .w32 ∨ 0x00C % 4 ≠ 0)) ∧ (0xFFFF < 0x10000 ∧ (Width.w32 ≠ .w32 ∨ 0xFFFF % 4 ≠ 0)) := by
  decide

/-- Misaligned, unbacked at the first byte beyond, locked at the last bytes, and performed at the last bytes. -/
theorem wit_BufferWindowWrites :
    (1 < 0x10000 ∧ (1 % Width.w16.bytes ≠ 0 ∨ finished.cfg.inSize < 1 + Width.w16.bytes)) ∧
    (16 < 0x10000 ∧ (16 % Width.w8.bytes ≠ 0 ∨ finished.cfg.inSize < 16 + Width.w8.bytes)) ∧
    (12 % Width.w32.bytes = 0 ∧ 12 + Width.w32.bytes ≤ (waiting .halt).cfg.inSize ∧ (waiting .halt).busy = true) ∧
    (12 % Width.w32.bytes = 0 ∧ 12 + Width.w32.bytes ≤ finished.cfg.inSize ∧ finished.busy = false) ∧
    (0xFFFC < 0x10000 ∧ (0xFFFC % Width.w32.bytes ≠ 0 ∨ finished.cfg.outSize < 0xFFFC + Width.w32.bytes)) ∧
    (15 % Width.w8.bytes = 0 ∧ 15 + Width.w8.bytes ≤ (waiting .halt).cfg.outSize ∧ (waiting .halt).busy = true) ∧
    (15 % Width.w8.bytes = 0 ∧ 15 + Width.w8.bytes ≤ finished.cfg.outSize ∧ finished.busy = false) := by decide

theorem wit_BufferWindowReads :
    (3 < 0x10000 ∧ [0x00#8, 0x00#8].length = Width.w16.bytes ∧
      (3 % Width.w16.bytes ≠ 0 ∨ finished.cfg.inSize < 3 + Width.w16.bytes)) ∧
    ([0x03#8, 0x04#8].length = Width.w16.bytes ∧ 2 % Width.w16.bytes = 0 ∧
      2 + Width.w16.bytes ≤ (scripted []).cfg.inSize ∧
      ∀ k (h : k < [0x03#8, 0x04#8].length), (scripted []).inBuf.read? (2 + k) = some [0x03#8, 0x04#8][k]) ∧
    (16 % Width.w8.bytes ≠ 0 ∨ finished.cfg.outSize < 16 + Width.w8.bytes) ∧
    (12 % Width.w32.bytes = 0 ∧ 12 + Width.w32.bytes ≤ (waiting .halt).cfg.outSize ∧ (waiting .halt).busy = true) ∧
    ([0xEE#8].length = Width.w8.bytes ∧ 7 % Width.w8.bytes = 0 ∧ 7 + Width.w8.bytes ≤ finished.cfg.outSize ∧
      finished.busy = false ∧ ∀ k (h : k < [0xEE#8].length), finished.outBuf.read? (7 + k) = some [0xEE#8][k]) := by
  decide

theorem wit_UnwrittenBytesFault :
    (4 < 0x10000 ∧ 4 % Width.w32.bytes = 0 ∧ 4 + Width.w32.bytes ≤ finished.cfg.inSize ∧
      ∃ k < Width.w32.bytes, finished.inBuf.read? (4 + k) = none) ∧
    (6 < 0x10000 ∧ 6 % Width.w16.bytes = 0 ∧ 6 + Width.w16.bytes ≤ finished.cfg.outSize ∧ finished.busy = false ∧
      ∃ k < Width.w16.bytes, finished.outBuf.read? (6 + k) = none) := by decide

theorem wit_HostReadsChangeNothing :
    (HostRuns (scripted [.read .w32 0x008]) (.read .w32 0x008) ∧ ∃ t, step (scripted [.read .w32 0x008]) = .next t) ∧
    (HostRuns (waiting (.read .w8 0x20000)) (.read .w8 0x20000) ∧
      (∃ t, step (waiting (.read .w8 0x20000)) = .next t) ∧
      readIsFree .w32 0x10000 (waiting (.read .w8 0x20000)) = false) :=
  ⟨⟨⟨rfl, rfl, rfl⟩, _, rfl⟩, ⟨rfl, rfl, rfl⟩, ⟨_, rfl⟩, rfl⟩

theorem wit_ByteWritesReadBackWide :
    finished.busy = false ∧ 12 % 4 = 0 ∧ 12 + 4 ≤ finished.cfg.inSize ∧ 12 + 4 ≤ 0x10000 := by decide

theorem wit_InputOutOfRange :
    (issued 0x041#32 5 0 []).cfg.inSize < (issued 0x041#32 5 0 []).latInLen.toNat * (Instr.unpack32To8 .query).eIn ∧
    (issued 0x110#32 17 0 []).cfg.inSize < (issued 0x110#32 17 0 []).latInLen.toNat * (Instr.p58Enc .fill).eIn := by decide

theorem wit_CommandFrame :
    (∃ t, exec (.pack8To32 .fill) (issued 0x140#32 5 2 [0x01#8, 0x02#8, 0x03#8, 0x04#8, 0x05#8]) = .next t ∧
      (Instr.pack8To32 .fill).positional = false ∧ t.code = .ok) ∧
    (∃ t, exec (.p58Enc .fill) (issued 0x110#32 0 0 []) = .next t ∧ t.code = .ok) ∧
    (∃ t, exec (.p58Enc .query) (issued 0x010#32 1 0 [0x39#8]) = .next t) ∧
    (∃ t, exec (.pack8To32 .fill) (issued 0x140#32 5 1 [0x01#8, 0x02#8, 0x03#8, 0x04#8, 0x05#8]) = .next t ∧
      t.code ≠ .ok) :=
  ⟨⟨_, rfl, rfl, rfl⟩, ⟨_, rfl, rfl⟩, ⟨_, rfl⟩, ⟨_, rfl, by decide⟩⟩

theorem wit_CodesOfEachCommand :
    (∃ t, exec (.p6Dec .query) (issued 0x021#32 1 0 [0x36#8]) = .next t ∧ t.code = .invalidSymbol) ∧
    (∃ t, exec (.p58Enc .fill) (issued 0x110#32 1 0 [0x39#8]) = .next t ∧ t.code = .outputTooSmall) ∧
    (∃ t, exec (.b64Dec .query) (issued 0x031#32 2 0 [0x54#8, 0x51#8]) = .next t ∧ t.code = .invalidLength) ∧
    (∃ t, exec (.unpack32To16 .fill) (issued 0x151#32 5 0 []) = .next t ∧ t.code = .invalidLength) :=
  ⟨⟨_, rfl, rfl⟩, ⟨_, rfl, rfl⟩, ⟨_, rfl, rfl⟩, ⟨_, rfl, rfl⟩⟩

theorem wit_QueryAnswersFillLength :
    (twoPhases (.b64Dec .query) (.b64Dec .fill) ∧
      commandFill tiny (.b64Dec .fill) [0x54, 0x57, 0x45, 0x3D] = .ok [0x4D, 0x61]) ∧
    (twoPhases (.unpack32To16 .query) (.unpack32To16 .fill) ∧
      commandFill tiny (.unpack32To16 .fill) [0x100] = .ok [0x100]) :=
  ⟨⟨⟨rfl, rfl, rfl, rfl⟩, by decide⟩, ⟨⟨rfl, rfl, rfl, rfl⟩, by decide⟩⟩

/-- A fill that ends OK, one whose length is over its capacity, one at its capacity exactly, and a B64.DEC fill of "TW=u". -/
theorem wit_QueryThenFill :
    (twoPhases (.b64Dec .query) (.b64Dec .fill) ∧
      ∃ t, exec (.b64Dec .fill) (issued 0x131#32 4 3 [0x54#8, 0x57#8, 0x46#8, 0x75#8]) = .next t ∧ t.code = .ok) ∧
    (twoPhases (.p58Enc .query) (.p58Enc .fill) ∧ (issued 0x110#32 1 0 [0x39#8]).cfg.Wf ∧
      ∃ u, exec (.p58Enc .query) (issued 0x110#32 1 0 [0x39#8]) = .next u ∧ u.code = .ok ∧
        capacity (Instr.p58Enc .fill).eOut (issued 0x110#32 1 0 [0x39#8]) < u.result.toNat) ∧
    (twoPhases (.p58Enc .query) (.p58Enc .fill) ∧ (issued 0x110#32 1 1 [0x39#8]).cfg.Wf ∧
      ∃ u, exec (.p58Enc .query) (issued 0x110#32 1 1 [0x39#8]) = .next u ∧ u.code = .ok ∧
        u.result.toNat ≤ capacity (Instr.p58Enc .fill).eOut (issued 0x110#32 1 1 [0x39#8])) ∧
    (twoPhases (.b64Dec .query) (.b64Dec .fill) ∧
      ∃ u, exec (.b64Dec .query) (issued 0x131#32 4 3 [0x54#8, 0x57#8, 0x3D#8, 0x75#8]) = .next u ∧ u.code = .ok) :=
  ⟨⟨⟨rfl, rfl, rfl, rfl⟩, _, rfl, rfl⟩,
    ⟨⟨rfl, rfl, rfl, rfl⟩, test_wf_tiny, _, rfl, rfl, by decide⟩,
    ⟨⟨rfl, rfl, rfl, rfl⟩, test_wf_tiny, _, rfl, rfl, by decide⟩,
    ⟨⟨rfl, rfl, rfl, rfl⟩, _, rfl, rfl⟩⟩

/-- One machine, and another that differs in everything a command must not depend on. -/
theorem wit_OutcomeDependsOnInputOnly :
    let s := issued 0x140#32 4 2 [0x01#8, 0x02#8, 0x03#8, 0x04#8]
    let s' := { issued 0x140#32 4 2 [0x01#8, 0x02#8, 0x03#8, 0x04#8, 0x05#8] with
      acc := 99, ie := true, ovr := true, cmd := 7#32, draws := 8, outBuf := [] }
    s.cfg = s'.cfg ∧ s.latInLen = s'.latInLen ∧ s.latOutCap = s'.latOutCap ∧
      (∀ a < s.latInLen.toNat * (Instr.pack8To32 .fill).eIn, s.inBuf.read? a = s'.inBuf.read? a) ∧
      (∃ t, exec (.pack8To32 .fill) s = .next t ∧ t.code = .ok) ∧
      exec (.pack8To32 .fill) { s with latInLen := 6#32 } = .fault .uninitRead :=
  ⟨by decide, by decide, by decide, by decide, ⟨_, rfl, rfl⟩, rfl⟩

theorem wit_InterruptLevel :
    (∃ t, exec (.p6Enc .query) (issued 0x020#32 0 0 []) = .next t) ∧ (0x2#32).getLsbD 1 = true ∧
    (finished.busy = false ∧ legal 0x010#32 = true) ∧ finished.done = true ∧
    ({ finished with resetIn := true } : State).resetIn = true := ⟨⟨_, rfl⟩, by decide⟩

/-! #### Inputs of each command

`InputIs` at the empty input, at a full buffer and in between; a capacity that fits and one that does not. -/

/-- Sixteen bytes: a full IN_BUF of the small instance. -/
def full : List Byte := List.replicate 16 0x31#8

theorem wit_P58EncodesPayload :
    InputIs (issued 0x110#32 0 0 []) 1 [] ∧ InputIs (issued 0x110#32 16 16 full) 1 full ∧
    (InputIs (issued 0x110#32 2 2 [0x00#8, 0x3A#8]) 1 [0x00#8, 0x3A#8] ∧
      capacity (Instr.p58Enc .fill).eOut (issued 0x110#32 2 2 [0x00#8, 0x3A#8]) < 3 ∧
      3 ≤ capacity (Instr.p58Enc .fill).eOut (issued 0x110#32 2 3 [0x00#8, 0x3A#8])) := by
  unfold InputIs holdsBytes; decide

theorem wit_P58DecodesText :
    tiny.AlphabetsOk ∧ (∀ d ∈ [0, 57, 0], d < 58) ∧
    InputIs (issued 0x111#32 3 16 [0x31#8, 0x7A#8, 0x31#8]) 1 (textOf tiny.alpha58.toList [0, 57, 0]) ∧
    InputIs (issued 0x111#32 0 0 []) 1 (textOf tiny.alpha58.toList []) := by
  unfold InputIs holdsBytes; exact ⟨tiny_alphabets, by decide⟩

theorem wit_P6EncodesPayload :
    InputIs (issued 0x120#32 0 0 []) 1 [] ∧ InputIs (issued 0x120#32 16 16 full) 1 full ∧
    InputIs (issued 0x120#32 1 4 [0xFF#8]) 1 [0xFF#8] := by
  unfold InputIs holdsBytes; decide

theorem wit_P6DecodesText :
    tiny.AlphabetsOk ∧ (∀ d ∈ [0, 5, 0], d < 6) ∧
    InputIs (issued 0x121#32 3 16 [0x30#8, 0x35#8, 0x30#8]) 1 (textOf tiny.alpha6.toList [0, 5, 0]) ∧
    InputIs (issued 0x121#32 0 0 []) 1 (textOf tiny.alpha6.toList []) := by
  unfold InputIs holdsBytes; exact ⟨tiny_alphabets, by decide⟩

/-- "1z0" in base 58, "0" as byte 6 in base 6, and an early padding byte at the last index before the padding. -/
theorem wit_FirstBadSymbolReported :
    (InputIs (issued 0x111#32 3 0 [0x31#8, 0x7A#8, 0x30#8]) 1 [0x31#8, 0x7A#8, 0x30#8] ∧
      0x30#8 ∉ tiny.alpha58.toList ∧ 0x31#8 ∈ tiny.alpha58.toList ∧ 0x7A#8 ∈ tiny.alpha58.toList) ∧
    (InputIs (issued 0x121#32 1 0 [0x36#8]) 1 [0x36#8] ∧ 0x36#8 ∉ tiny.alpha6.toList) ∧
    (InputIs (issued 0x131#32 4 0 [0x41#8, 0x3D#8, 0x3D#8, 0x3D#8]) 1 [0x41#8, 0x3D#8, 0x3D#8, 0x3D#8] ∧
      0x3D#8 ∉ tiny.alpha64.toList ∧ 0x41#8 ∈ tiny.alpha64.toList ∧
      1 < 4 - padCount tiny.pad64 [0x41, 0x3D, 0x3D, 0x3D]) := by
  unfold InputIs holdsBytes; decide

theorem wit_B64EncodesPayload :
    InputIs (issued 0x130#32 0 0 []) 1 [] ∧ InputIs (issued 0x130#32 16 16 full) 1 full ∧
    InputIs (issued 0x130#32 2 4 [0x4D#8, 0x61#8]) 1 [0x4D#8, 0x61#8] := by
  unfold InputIs holdsBytes; decide

/-- No, one and two padding bytes. -/
theorem wit_B64DecodesText :
    tiny.AlphabetsOk ∧
    ((∀ d ∈ [19, 22, 5, 46], d < 64) ∧ InputIs (issued 0x131#32 4 3 [0x54#8, 0x57#8, 0x46#8, 0x75#8]) 1
      (textOf tiny.alpha64.toList [19, 22, 5, 46] ++ List.replicate 0 tiny.pad64)) ∧
    ((∀ d ∈ [19, 22, 4], d < 64) ∧ InputIs (issued 0x131#32 4 3 [0x54#8, 0x57#8, 0x45#8, 0x3D#8]) 1
      (textOf tiny.alpha64.toList [19, 22, 4] ++ List.replicate 1 tiny.pad64)) ∧
    ((∀ d ∈ [19, 63], d < 64) ∧ InputIs (issued 0x131#32 4 3 [0x54#8, 0x2F#8, 0x3D#8, 0x3D#8]) 1
      (textOf tiny.alpha64.toList [19, 63] ++ List.replicate 2 tiny.pad64)) := by
  unfold InputIs holdsBytes; exact ⟨tiny_alphabets, by decide⟩

theorem wit_B64DecodeQueryLength :
    InputIs (issued 0x031#32 3 0 [0x54#8, 0x51#8, 0x3D#8]) 1 [0x54#8, 0x51#8, 0x3D#8] ∧ 3 % 4 ≠ 0 ∧
    InputIs (issued 0x031#32 4 0 [0x3D#8, 0x3D#8, 0x3D#8, 0x3D#8]) 1 [0x3D#8, 0x3D#8, 0x3D#8, 0x3D#8] ∧
    InputIs (issued 0x031#32 0 0 []) 1 [] := by
  unfold InputIs holdsBytes; decide

theorem wit_Pack8WritesLanes :
    InputIs (issued 0x140#32 0 0 []) 1 [] ∧ InputIs (issued 0x140#32 16 4 full) 1 full ∧
    (InputIs (issued 0x140#32 1 1 [0x00#8]) 1 [0x00#8] ∧
      1 ≤ capacity (Instr.pack8To32 .fill).eOut (issued 0x140#32 1 1 [0x00#8]) ∧
      capacity (Instr.pack8To32 .fill).eOut (issued 0x140#32 1 0 [0x00#8]) < 1) := by
  unfold InputIs holdsBytes; decide

theorem wit_Pack16WritesLanes :
    InputIs (issued 0x150#32 0 0 []) 2 [] ∧ InputIs (issued 0x150#32 8 4 full) 2 full ∧
    InputIs (issued 0x150#32 1 1 [0x34#8, 0x12#8]) 2 [0x34#8, 0x12#8] := by
  unfold InputIs holdsBytes; decide

/-- A zero top lane (nothing of it kept), a top lane kept whole, one trimmed in the middle, and no lanes. -/
theorem wit_Unpack8TrimsTopLane :
    (let p := [0x05#8, 0x00#8, 0x00#8, 0x00#8, 0x00#8, 0x00#8, 0x00#8, 0x00#8];
      InputIs (issued 0x141#32 2 16 p) 4 p ∧ 4 ≤ p.length ∧ p.length - 4 ≤ 4 ∧
      ∀ k (_ : k < p.length), 4 ≤ k → p[k] = 0#8) ∧
    (let p := [0x00#8, 0x00#8, 0x00#8, 0x80#8];
      InputIs (issued 0x141#32 1 16 p) 4 p ∧ 4 ≤ p.length ∧ p.length - 4 ≤ 4 ∧
      (∀ k (_ : k < p.length), 4 ≤ k → p[k] = 0#8) ∧ p.length - 4 < 4 ∧ p.getD (4 - 1) 0#8 ≠ 0#8) ∧
    (let p := [0x00#8, 0x01#8, 0x00#8, 0x00#8];
      InputIs (issued 0x141#32 1 16 p) 4 p ∧ 2 ≤ p.length ∧ p.length - 4 ≤ 2 ∧
      (∀ k (_ : k < p.length), 2 ≤ k → p[k] = 0#8) ∧ p.length - 4 < 2 ∧ p.getD (2 - 1) 0#8 ≠ 0#8) ∧
    InputIs (issued 0x141#32 0 16 []) 4 [] := by
  unfold InputIs holdsBytes; decide

/-- A zero top lane, a sub-lane whose low byte is zero, one whose high byte is zero, and no lanes. -/
theorem wit_Unpack16TrimsTopLane :
    (let p := [0x05#8, 0x00#8, 0x00#8, 0x00#8, 0x00#8, 0x00#8, 0x00#8, 0x00#8];
      InputIs (issued 0x151#32 2 16 p) 4 p ∧ 2 * 2 ≤ p.length ∧ p.length - 4 ≤ 2 * 2 ∧
      ∀ k (_ : k < p.length), 2 * 2 ≤ k → p[k] = 0#8) ∧
    (let p := [0x00#8, 0x01#8, 0x00#8, 0x00#8];
      InputIs (issued 0x151#32 1 16 p) 4 p ∧ 2 * 1 ≤ p.length ∧ p.length - 4 ≤ 2 * 1 ∧
      (∀ k (_ : k < p.length), 2 * 1 ≤ k → p[k] = 0#8) ∧ p.length - 4 < 2 * 1 ∧ p.getD (2 * 1 - 1) 0#8 ≠ 0#8) ∧
    (let p := [0x00#8, 0x00#8, 0x01#8, 0x00#8];
      InputIs (issued 0x151#32 1 16 p) 4 p ∧ 2 * 2 ≤ p.length ∧ p.length - 4 ≤ 2 * 2 ∧
      (∀ k (_ : k < p.length), 2 * 2 ≤ k → p[k] = 0#8) ∧ p.length - 4 < 2 * 2 ∧ p.getD (2 * 2 - 2) 0#8 ≠ 0#8) ∧
    InputIs (issued 0x151#32 0 16 []) 4 [] := by
  unfold InputIs holdsBytes; decide

/-! #### Laws -/

theorem wit_RoundTripBase58 : tiny.AlphabetsOk ∧ ∀ b ∈ [0, 255, 0], b < 256 := ⟨tiny_alphabets, by decide⟩
theorem wit_RoundTripBase6 : tiny.AlphabetsOk ∧ ∀ b ∈ [0, 255, 0], b < 256 := ⟨tiny_alphabets, by decide⟩
theorem wit_RoundTripBase64 : tiny.AlphabetsOk ∧ ∀ b ∈ [0, 255, 0, 1], b < 256 := ⟨tiny_alphabets, by decide⟩
theorem wit_PaddingByLength : tiny.AlphabetsOk := tiny_alphabets

theorem wit_ConverterKeepsValue : (8 = 8 ∨ 8 = 16) ∧ (16 = 8 ∨ 16 = 16) ∧ ∀ w ∈ [0, 0xFFFFFFFF, 0], w < 2 ^ 32 := by decide

/-- [1, 0, 0, 0, 0], of which the converter keeps four lanes, and [1, 0, 2, 0], of which it keeps three. -/
theorem wit_ConverterRoundTrips :
    (8 = 8 ∨ 8 = 16) ∧
    (let x := [1, 0, 0, 0, 0];
      (∀ v ∈ x, v < 2 ^ 8) ∧ 4 ≤ x.length ∧ (x.length - 1) / (32 / 8) * (32 / 8) ≤ 4 ∧
      ∀ k (_ : k < x.length), 4 ≤ k → x[k] = 0) ∧
    (let x := [1, 0, 2, 0];
      (∀ v ∈ x, v < 2 ^ 8) ∧ 3 ≤ x.length ∧ (x.length - 1) / (32 / 8) * (32 / 8) ≤ 3 ∧
      (∀ k (_ : k < x.length), 3 ≤ k → x[k] = 0) ∧
      (x.length - 1) / (32 / 8) * (32 / 8) < 3 ∧ x.getD (3 - 1) 0 ≠ 0) ∧
    (let w := [0x80000000, 0];
      (∀ v ∈ w, v < 2 ^ 32) ∧ w.getLast? = some 0) := by decide

theorem wit_PositionalLengths :
    (58 = 58 ∨ 58 = 6) ∧ (∀ v ∈ [0, 255], v < 256) ∧
    (fillP58Dec tiny.alpha58.toList [0x7A] = .ok [0x39] ∨ fillP6Dec tiny.alpha6.toList [0x7A] = .ok [0x39]) ∧
    (fillP58Dec tiny.alpha58.toList [0x30] = .ok [] ∨ fillP6Dec tiny.alpha6.toList [0x30] = .ok []) := by decide

theorem wit_AccumulatorHoldsEveryValue :
    tiny.Wf ∧ (256 = 256 ∨ 256 = 58 ∨ 256 = 6) ∧ (∀ d ∈ List.replicate 16 255, d < 256) ∧
    (List.replicate 16 255).length ≤ tiny.inSize ∧ (∀ d ∈ List.replicate 16 57, d < 58) := ⟨test_wf_tiny, by decide⟩

theorem wit_EmptyAndAllZero : tiny.AlphabetsOk := tiny_alphabets

theorem wit_InfoFitsResult :
    tiny.Wf ∧ (∀ v ∈ [0xFFFFFFFF, 0], v < 256 ^ (Instr.unpack32To8 .fill).eIn) ∧
    [0xFFFFFFFF, 0].length * (Instr.unpack32To8 .fill).eIn ≤ tiny.inSize ∧
    commandQuery tiny (.unpack32To8 .fill) [0xFFFFFFFF, 0] = .ok 4 ∧
    commandFill tiny (.unpack32To8 .fill) [0xFFFFFFFF, 0] = .ok [255, 255, 255, 255] := ⟨test_wf_tiny, by decide⟩

/-! #### Whole states -/

/-- The invariant holds of an idle machine and of one with a command running. -/
theorem inv_ready : BlockInv finished := ⟨test_wf_tiny, by decide, by decide, by decide, by decide, by decide, by decide,
  by decide, by decide⟩
theorem inv_waiting : BlockInv (waiting (.read .w32 0x008)) := ⟨test_wf_tiny, by decide, by decide, by decide, by decide,
  by decide, by decide, by decide, by decide⟩

theorem wit_StepKeepsInv :
    (BlockInv (waiting (.read .w32 0x008)) ∧ ∃ t, step (waiting (.read .w32 0x008)) = .next t) ∧
    (BlockInv finished ∧ ∃ t, step finished = .next t) := ⟨⟨inv_waiting, _, rfl⟩, inv_ready, _, rfl⟩

theorem wit_ParametersNeverChange : ∃ t, step { waiting .halt with resetIn := true } = .next t := ⟨_, rfl⟩

theorem wit_OnlyCompleteEndsWait :
    ((waiting (.read .w32 0x008)).busy = true ∧ (∃ t, step (waiting (.read .w32 0x008)) = .next t) ∧
      (waiting (.read .w32 0x008)).resetIn = false) ∧
    ((waiting .halt).busy = true ∧ (∃ t, step (waiting .halt) = .next t) ∧ (waiting .halt).resetIn = false) :=
  ⟨⟨rfl, ⟨_, rfl⟩, rfl⟩, ⟨rfl, ⟨_, rfl⟩, rfl⟩⟩

theorem wit_DelayRunsDown :
    (BlockInv (waiting (.read .w32 0x008)) ∧ (waiting (.read .w32 0x008)).busy = true ∧
      (waiting (.read .w32 0x008)).resetIn = false ∧
      ∃ t, step (waiting (.read .w32 0x008)) = .next t ∧ t.busy = true) ∧
    (issued 0x110#32 0 0 []).wait = 0 ∧ hostIdle (waiting .halt) = true ∧ (waiting .halt).wait ≠ 0 :=
  ⟨⟨inv_waiting, rfl, rfl, _, rfl, rfl⟩, rfl, by decide, by decide⟩

end Sys2Proof.Tests
end

/-! ### The parameters of the block are constant (spec/00_scope.md R5)

One lemma for each agent of a step, down to the bus write, the only host access with a side effect. -/

namespace Sys2Proof.Machine

@[simp] theorem issue_cfg (v : Word) (s : State) : (issue v s).cfg = s.cfg := by
  unfold issue
  split
  · simp only [startCmd_cfg, acceptCmd_cfg]
  · simp only [illegalCmd_cfg, acceptCmd_cfg]

theorem exec_keeps_cfg {i : Instr} {s t : State} (h : exec i s = .next t) : t.cfg = s.cfg := by
  obtain ⟨code, info, rfl, -, -⟩ | ⟨elems, -, -, rfl⟩ := exec_cases h
  · simp only [settle_cfg, finish_cfg]
  · simp only [settle_cfg, finish_cfg]

theorem busWrite_keeps_cfg {w : Width} {off : Nat} {v : Word} {s t : State}
    (h : busWrite w off v s = .next t) : t.cfg = s.cfg := by
  obtain rfl | ⟨-, rfl⟩ | ⟨_, rfl, -⟩ | ⟨_, rfl, -⟩ | ⟨-, -, rfl⟩ | ⟨-, -, rfl⟩ | ⟨-, -, rfl⟩ |
    ⟨_, -, -, -, rfl⟩ | ⟨_, -, -, -, rfl⟩ := busWrite_cases h
  · rfl
  · exact dropWrite_cfg s
  · exact writeCtrl_cfg v s
  · exact clearStatus_cfg v s
  · exact issue_cfg v s
  all_goals rfl -- IN_LEN, OUT_CAP and the two buffers

theorem runLine_keeps_cfg {l : HostLine} {s t : State} (h : runLine l s = .next t) : t.cfg = s.cfg := by
  obtain ⟨w, off, d, u, -, hu, rfl⟩ | ⟨w, off, v, -, -, rfl⟩ | ⟨p, rfl⟩ := runLine_cases h
  · exact (nextLine_cfg u).trans (busWrite_keeps_cfg hu)
  · exact afterRead_cfg w off s
  · rfl

theorem hostStep_keeps_cfg {s t : State} (h : hostStep s = .next t) : t.cfg = s.cfg := by
  obtain ⟨-, rfl⟩ | ⟨l, -, hl⟩ := hostStep_cases h
  · rfl
  · exact (runLine_keeps_cfg hl).trans (tick_cfg s)

theorem step_keeps_cfg {s t : State} (h : step s = .next t) : t.cfg = s.cfg := by
  obtain ⟨-, rfl⟩ | ⟨-, -, i, -, hi⟩ | ⟨-, -, hh⟩ := step_cases h
  · exact blockReset_cfg s
  · exact exec_keeps_cfg hi
  · exact hostStep_keeps_cfg hh

/-- Settles O56: reset, COMPLETE and the host each keep the configuration. -/
theorem parametersNeverChange : Obligations.ParametersNeverChange :=
  fun _ _ => step_keeps_cfg

end Sys2Proof.Machine

/-! ### The invariant (spec/10_state.md R26, R30 to R34, spec/60_exceptions.md R150)

One lemma for each operation of a step. `BlockInv` speaks of neither IE and OVR nor the host, so an update of these alone is
`BlockInv.of_frame`. -/

namespace Sys2Proof.Machine

/-- The invariant speaks of neither IE, OVR, the host's position and temporary, nor the model's own counters. -/
theorem BlockInv.of_frame {s t : State} (hs : BlockInv s)
    (ht : t = { s with ie := t.ie, ovr := t.ovr, pos := t.pos, temp := t.temp, wait := t.wait, draws := t.draws }) :
    BlockInv t := by
  rw [ht]
  exact { hs with }

theorem blockReset_keeps_inv {s : State} (hs : BlockInv s) : BlockInv (blockReset s) where
  cfgWf := hs.cfgWf
  inBufWf := rfl
  outBufWf := rfl
  accFits := Nat.two_pow_pos _
  codeProduced := List.mem_cons_self
  illegalResult _ := rfl
  busyLegal h := by cases h
  busyLatch h := by cases h
  busyClear h := by cases h

/-! #### COMPLETE -/

theorem settle_acc_fits (i : Instr) {u : State} (h : u.acc < 2 ^ u.cfg.accBits) :
    (settle i u).acc < 2 ^ u.cfg.accBits := by
  cases hp : i.positional with
  | false => rwa [settle_acc i u hp]
  | true =>
    rw [settle, if_pos hp, releaseAcc_acc]
    exact Nat.mod_lt _ (Nat.two_pow_pos _)

theorem settle_keeps_inv (i : Instr) {u : State} (hu : BlockInv u) : BlockInv (settle i u) := by
  constructor
  case accFits => simpa only [settle_cfg] using settle_acc_fits i hu.accFits
  all_goals simp only [settle_cfg, settle_busy, settle_done, settle_code, settle_cmd, settle_inLen, settle_outCap,
    settle_result, settle_inBuf, settle_outBuf, settle_latCmd, settle_latInLen, settle_latOutCap]
  exacts [hu.cfgWf, hu.inBufWf, hu.outBufWf, hu.codeProduced, hu.illegalResult, hu.busyLegal, hu.busyLatch, hu.busyClear]

/-- Ending a command with a code that a COMPLETE gives: BUSY falls, and with it every promise about the latch. -/
theorem finish_keeps_inv {code : StatusCode} (info : Nat) {s : State} (hs : BlockInv s)
    (hc : code ∈ [.ok, .invalidSymbol, .outputTooSmall, .invalidLength]) : BlockInv (finish code info s) :=
  have hlegal : code ≠ .illegalCommand := by rintro rfl; simp at hc
  { hs with
    codeProduced := List.mem_append_left [StatusCode.illegalCommand] hc
    illegalResult := fun h => absurd h hlegal
    busyLegal := fun h => by cases h
    busyLatch := fun h => by cases h
    busyClear := fun h => by cases h }

/-- An output within the capacity stays inside OUT_BUF. -/
theorem length_mul_le_outSize {n e : Nat} {s : State} (h : n ≤ capacity e s) : n * e ≤ s.cfg.outSize :=
  (Nat.mul_le_mul_right e (h.trans (Nat.min_le_right _ _))).trans (Nat.div_mul_le_self _ _)

theorem exec_keeps_inv {i : Instr} {s t : State} (hs : BlockInv s) (h : exec i s = .next t) : BlockInv t := by
  obtain ⟨code, info, rfl, hc, -⟩ | ⟨elems, -, hcap, rfl⟩ := exec_cases h
  · exact settle_keeps_inv i (finish_keeps_inv info hs hc)
  · have hout : BlockInv { s with outBuf := outElems s.outBuf i.eOut elems } :=
      { hs with outBufWf := outElems_keeps_wf hs.outBufWf (length_mul_le_outSize hcap) }
    exact settle_keeps_inv i (finish_keeps_inv _ hout (by decide))

/-! #### Host accesses -/

theorem clearStatus_keeps_inv (v : Word) {s : State} (hs : BlockInv s) : BlockInv (clearStatus v s) :=
  { hs with
    busyClear := fun hb =>
      have ⟨hdone, hcode, hresult⟩ := hs.busyClear hb
      ⟨by rw [clearStatus_done, hdone, Bool.false_and], hcode, hresult⟩ }

theorem issue_legal {v : Word} (s : State) (h : legal v = true) : issue v s = startCmd v (acceptCmd v s) := if_pos h

theorem issue_illegal {v : Word} (s : State) (h : legal v = false) : issue v s = illegalCmd (acceptCmd v s) :=
  if_neg (by simp [h])

/-- A new command sets every field the invariant promises something about while BUSY = 1; an illegal one leaves BUSY = 0. -/
theorem issue_keeps_inv (v : Word) {s : State} (hs : BlockInv s) (hb : s.busy = false) : BlockInv (issue v s) := by
  cases hv : legal v with
  | true =>
    rw [issue_legal s hv]
    exact { hs with
      codeProduced := List.mem_cons_self
      illegalResult := fun _ => rfl
      busyLegal := fun _ => hv
      busyLatch := fun _ => ⟨rfl, rfl, rfl⟩
      busyClear := fun _ => ⟨rfl, rfl, rfl⟩ }
  | false =>
    have hidle : (illegalCmd (acceptCmd v s)).busy ≠ true := by simp [hb]
    rw [issue_illegal s hv]
    exact { hs with
      codeProduced := by simp [producedCodes]
      illegalResult := fun _ => rfl
      busyLegal := fun h => absurd h hidle
      busyLatch := fun h => absurd h hidle
      busyClear := fun h => absurd h hidle }

theorem busWrite_keeps_inv {w : Width} {off : Nat} {v : Word} {s t : State} (hs : BlockInv s)
    (h : busWrite w off v s = .next t) : BlockInv t := by
  obtain rfl | ⟨-, rfl⟩ | ⟨_, rfl, -⟩ | ⟨_, rfl, -⟩ | ⟨hb, -, rfl⟩ | ⟨hb, -, rfl⟩ | ⟨hb, -, rfl⟩ |
    ⟨o, -, -, ho, rfl⟩ | ⟨o, -, -, ho, rfl⟩ := busWrite_cases h
  · exact hs
  · exact hs.of_frame rfl
  · exact hs.of_frame rfl
  · exact clearStatus_keeps_inv v hs
  · exact issue_keeps_inv v hs hb
  · exact { hs with busyLatch := fun h => by simp [hb] at h }
  · exact { hs with busyLatch := fun h => by simp [hb] at h }
  · exact { hs with inBufWf := memWrite_keeps_wf w.bytes v.toNat hs.inBufWf ho }
  · exact { hs with outBufWf := memWrite_keeps_wf w.bytes v.toNat hs.outBufWf ho }

theorem afterRead_keeps_inv (w : Width) (off : Nat) {s : State} (hs : BlockInv s) : BlockInv (afterRead w off s) :=
  hs.of_frame (by unfold afterRead; split <;> rfl)

theorem tick_keeps_inv {s : State} (hs : BlockInv s) : BlockInv (tick s) :=
  hs.of_frame (by unfold tick; split <;> rfl)

theorem runLine_keeps_inv {l : HostLine} {s t : State} (hs : BlockInv s) (h : runLine l s = .next t) : BlockInv t := by
  obtain ⟨w, off, d, u, -, hu, rfl⟩ | ⟨w, off, v, -, -, rfl⟩ | ⟨p, rfl⟩ := runLine_cases h
  · exact (busWrite_keeps_inv hs hu).of_frame rfl
  · exact (afterRead_keeps_inv w off hs).of_frame rfl
  · exact hs.of_frame rfl

theorem hostStep_keeps_inv {s t : State} (hs : BlockInv s) (h : hostStep s = .next t) : BlockInv t := by
  obtain ⟨-, rfl⟩ | ⟨l, -, hl⟩ := hostStep_cases h
  · exact hs
  · exact runLine_keeps_inv (tick_keeps_inv hs) hl

/-- Settles O55: a reset input, COMPLETE and the host each keep the invariant. -/
theorem stepKeepsInv : Obligations.StepKeepsInv := by
  intro s t hs h
  obtain ⟨-, rfl⟩ | ⟨-, -, i, -, hi⟩ | ⟨-, -, hh⟩ := step_cases h
  · exact blockReset_keeps_inv hs
  · exact exec_keeps_inv hs hi
  · exact hostStep_keeps_inv hs hh

end Sys2Proof.Machine

/-! ### Host accesses by offset (spec/10_state.md R17 to R29, spec/20_memory.md R41 to R43) -/

namespace Sys2Proof.Machine

/-- An aligned 32-bit write in the register space is the register's own write. -/
theorem busWrite_register {off : Nat} (h : off < 0x10000) (ha : off % 4 = 0) (v : Word) (s : State) :
    busWrite .w32 off v s = .next (writeRegister off v s) := by
  simp only [busWrite, regionOf_registers h, registerAccess, ha, beq_self_eq_true, Bool.and_self, if_true]

/-- An aligned 32-bit read in the register space is the register's own read. -/
theorem busRead_register {off : Nat} (h : off < 0x10000) (ha : off % 4 = 0) (s : State) :
    busRead .w32 off s = .ok (readRegister off s) := by
  simp only [busRead, regionOf_registers h, registerAccess, ha, beq_self_eq_true, Bool.and_self, if_true]

theorem busWrite_inWindow {o : Nat} (h : o < 0x10000) (w : Width) (v : Word) (s : State) :
    busWrite w (0x10000 + o) v s = .next (writeInWindow w o v s) := by
  simp only [busWrite, regionOf_inWindow h]

theorem busWrite_outWindow {o : Nat} (h : o < 0x10000) (w : Width) (v : Word) (s : State) :
    busWrite w (0x20000 + o) v s = .next (writeOutWindow w o v s) := by
  simp only [busWrite, regionOf_outWindow h]

theorem bufferAccess_iff {w : Width} {o size : Nat} :
    bufferAccess w o size = true ↔ o % w.bytes = 0 ∧ o + w.bytes ≤ size := by
  simp [bufferAccess]

/-! #### The five registers a write can reach -/

theorem busWrite_ctrl (v : Word) (s : State) : busWrite .w32 0x004 v s = .next (writeCtrl v s) :=
  busWrite_register (by decide) rfl v s

theorem busWrite_status (v : Word) (s : State) : busWrite .w32 0x008 v s = .next (clearStatus v s) :=
  busWrite_register (by decide) rfl v s

theorem busWrite_cmd (v : Word) (s : State) : busWrite .w32 0x00C v s = .next (writeCmd v s) :=
  busWrite_register (by decide) rfl v s

theorem busWrite_inLen (v : Word) (s : State) : busWrite .w32 0x010 v s = .next (writeInLen v s) :=
  busWrite_register (by decide) rfl v s

theorem busWrite_outCap (v : Word) (s : State) : busWrite .w32 0x014 v s = .next (writeOutCap v s) :=
  busWrite_register (by decide) rfl v s

/-- Read-only registers and reserved offsets ignore a write (spec/10_state.md R19, R26 to R28). -/
theorem writeRegister_other {off : Nat} (h : off ∉ [0x004, 0x008, 0x00C, 0x010, 0x014]) (v : Word) (s : State) :
    writeRegister off v s = s := by
  unfold writeRegister
  split
  case h_6 => rfl
  all_goals exact absurd (by decide) h

/-- From 0x024 on every register offset is reserved and reads 0 (spec/10_state.md R28). -/
theorem readRegister_reserved {off : Nat} (h : 0x024 ≤ off) (s : State) : readRegister off s = 0#32 := by
  unfold readRegister
  split
  case h_10 => rfl
  all_goals omega

/-! #### The busy lock (spec/10_state.md R29) -/

section
variable {s : State}

theorem writeCmd_idle (v : Word) (hb : s.busy = false) : writeCmd v s = issue v s := if_neg (by simp [hb])
theorem writeInLen_idle (v : Word) (hb : s.busy = false) : writeInLen v s = { s with inLen := v } := if_neg (by simp [hb])
theorem writeOutCap_idle (v : Word) (hb : s.busy = false) : writeOutCap v s = { s with outCap := v } :=
  if_neg (by simp [hb])

theorem writeCmd_busy (v : Word) (hb : s.busy = true) : writeCmd v s = dropWrite s := if_pos hb
theorem writeInLen_busy (v : Word) (hb : s.busy = true) : writeInLen v s = dropWrite s := if_pos hb
theorem writeOutCap_busy (v : Word) (hb : s.busy = true) : writeOutCap v s = dropWrite s := if_pos hb

theorem writeInWindow_busy {w : Width} {o : Nat} (v : Word) (hb : s.busy = true)
    (ha : bufferAccess w o s.cfg.inSize = true) : writeInWindow w o v s = dropWrite s := by
  simp only [writeInWindow, ha, hb, Bool.not_true, Bool.false_eq_true, if_false, if_true]

theorem writeOutWindow_busy {w : Width} {o : Nat} (v : Word) (hb : s.busy = true)
    (ha : bufferAccess w o s.cfg.outSize = true) : writeOutWindow w o v s = dropWrite s := by
  simp only [writeOutWindow, ha, hb, Bool.not_true, Bool.false_eq_true, if_false, if_true]

end

/-- Settles O14: the lock drops writes to CMD, IN_LEN, OUT_CAP and the buffers, and it alone sets OVR. -/
theorem busyLockDropsWrites : Obligations.BusyLockDropsWrites := by
  intro s w v hb
  refine ⟨fun off hoff => ?_, fun o ho ha hs => ?_, fun o ho ha hs => ?_, busWrite_ctrl v s, busWrite_status v s,
    fun off ho ha hother => ?_⟩
  · simp only [List.mem_cons, List.not_mem_nil, or_false] at hoff
    obtain rfl | rfl | rfl := hoff
    · rw [busWrite_cmd, writeCmd_busy v hb, dropWrite]
    · rw [busWrite_inLen, writeInLen_busy v hb, dropWrite]
    · rw [busWrite_outCap, writeOutCap_busy v hb, dropWrite]
  · rw [busWrite_inWindow ho, writeInWindow_busy v hb (bufferAccess_iff.2 ⟨ha, hs⟩), dropWrite]
  · rw [busWrite_outWindow ho, writeOutWindow_busy v hb (bufferAccess_iff.2 ⟨ha, hs⟩), dropWrite]
  · rw [busWrite_register ho ha, writeRegister_other hother]

/-- Settles O15: bit 1 of the data clears DONE and bit 2 clears OVR; while BUSY = 1 the invariant has DONE clear already. -/
theorem statusWriteClearsOnes : Obligations.StatusWriteClearsOnes := by
  intro s v
  refine ⟨_, busWrite_status v s, ?_, ?_, ?_, ?_, rfl, fun hs hb => ?_⟩
  · intro h; rw [clearStatus_done, h, Bool.not_true, Bool.and_false]
  · intro h; rw [clearStatus_done, h, Bool.not_false, Bool.and_true]
  · intro h; rw [clearStatus_ovr, h, Bool.not_true, Bool.and_false]
  · intro h; rw [clearStatus_ovr, h, Bool.not_false, Bool.and_true]
  · obtain ⟨hdone, -, -⟩ := hs.busyClear hb
    rw [clearStatus_done, hdone, Bool.false_and]

/-- Settles O18: without the busy lock each write is a plain store. -/
theorem lengthRegistersStore : Obligations.LengthRegistersStore := by
  intro s v hb
  refine ⟨⟨_, busWrite_inLen v s, writeInLen_idle v hb, ?_⟩, ⟨_, busWrite_outCap v s, writeOutCap_idle v hb, ?_⟩⟩
  · rw [busRead_register (by decide) rfl, writeInLen_idle v hb, readRegister]
  · rw [busRead_register (by decide) rfl, writeOutCap_idle v hb, readRegister]

/-- Settles O19: no arm of `writeRegister` is for these offsets, and each read is its register's. -/
theorem readOnlyAndReserved : Obligations.ReadOnlyAndReserved := by
  refine ⟨fun s v off ho ha hother => ?_, fun s => ⟨?_, ?_, ?_, ?_⟩, fun s off hr ho ha => ?_, rfl⟩
  · rw [busWrite_register ho ha, writeRegister_other hother]
  · exact busRead_register (by decide) rfl s
  · exact busRead_register (by decide) rfl s
  · exact busRead_register (by decide) rfl s
  · exact busRead_register (by decide) rfl s
  · rw [busRead_register ho ha, readRegister_reserved hr]

/-! ### STATUS bit by bit (spec/10_state.md R21) -/

/-- STATUS as its fields: reserved bits, CODE, reserved bits, OVR, DONE, BUSY. -/
theorem statusWord_fields (s : State) :
    statusWord s = 0#20 ++ BitVec.ofNat 4 (codeNumber s.code) ++
      (0#5 ++ BitVec.ofBool s.ovr ++ BitVec.ofBool s.done ++ BitVec.ofBool s.busy) := by
  unfold statusWord
  generalize s.busy = busy, s.done = done, s.ovr = ovr, s.code = code
  cases code <;> revert busy done ovr <;> decide

/-- The fields below CODE. -/
theorem statusWord_low (s : State) {k : Nat} (h : k < 8) :
    (statusWord s).getLsbD k = if k = 0 then s.busy else if k = 1 then s.done else if k = 2 then s.ovr else false := by
  rw [statusWord_fields]
  interval_cases k <;> simp only [BitVec.getLsbD_append] <;> simp

theorem statusWord_high (s : State) {k : Nat} (h : 12 ≤ k) : (statusWord s).getLsbD k = false := by
  simp only [statusWord_fields, BitVec.getLsbD_append, show ¬k < 8 by omega, show ¬k - 8 < 4 by omega, if_false,
    BitVec.getLsbD_zero]

theorem statusWord_code (s : State) :
    (statusWord s).extractLsb' 8 4 = BitVec.ofNat 4 (codeNumber s.code) := by
  rw [statusWord_fields]
  ext k hk
  simp only [BitVec.getElem_extractLsb', BitVec.getLsbD_append, show ¬8 + k < 8 by omega, if_false,
    Nat.add_sub_cancel_left, hk, if_true, BitVec.getLsbD_eq_getElem]

/-- Settles O17: STATUS is a concatenation of its fields, so each bit is read off its own field. -/
theorem registerReads : Obligations.RegisterReads := by
  intro s
  refine ⟨⟨statusWord s, busRead_register (by decide) rfl s, ?_, ?_, ?_, fun k h3 h => ?_, ?_⟩,
    busRead_register (by decide) rfl s, busRead_register (by decide) rfl s, busRead_register (by decide) rfl s⟩
  · rw [statusWord_low s (by decide), if_pos rfl]
  · rw [statusWord_low s (by decide), if_neg (by decide), if_pos rfl]
  · rw [statusWord_low s (by decide), if_neg (by decide), if_neg (by decide), if_pos rfl]
  · obtain h8 | h12 := h
    · rw [statusWord_low s h8, if_neg (by omega), if_neg (by omega), if_neg (by omega)]
    · exact statusWord_high s h12
  · rw [statusWord_code]
    refine ⟨?_, ?_, ?_, ?_, ?_⟩ <;> intro hc <;> rw [hc] <;> rfl

end Sys2Proof.Machine

/-! ### IE and IRQ (spec/10_state.md R20, R35, spec/60_exceptions.md R160)

No command reads IE, so every operation of a COMPLETE commutes with setting it. -/

namespace Sys2Proof.Machine

theorem settle_setIe (i : Instr) (u : State) (b : Bool) :
    settle i { u with ie := b } = { settle i u with ie := b } := by
  unfold settle; split <;> rfl

theorem finish_setIe (code : StatusCode) (info : Nat) (s : State) (b : Bool) :
    finish code info { s with ie := b } = { finish code info s with ie := b } := rfl

theorem completeQuery_setIe (a : Answer Nat) (s : State) (b : Bool) :
    completeQuery a { s with ie := b } = { completeQuery a s with ie := b } := by
  cases a <;> rfl

theorem completeFill_setIe (eOut : Nat) (a : Answer (List Nat)) (s : State) (b : Bool) :
    completeFill eOut a { s with ie := b } = { completeFill eOut a s with ie := b } := by
  cases a with
  | err code info => rfl
  | ok elems =>
    have hcap : capacity eOut { s with ie := b } = capacity eOut s := rfl
    simp only [completeFill, hcap]
    split <;> rfl

/-- A command whose IE is set beforehand has the same next state, IE apart. -/
theorem exec_setIe {i : Instr} {s t : State} (b : Bool) (h : exec i s = .next t) :
    exec i { s with ie := b } = .next { t with ie := b } := by
  obtain ⟨hr, he⟩ | ⟨hr, ⟨-, he⟩ | ⟨x, hx, ⟨hm, he⟩ | ⟨hm, he⟩⟩⟩ := exec_forms i s <;> rw [he] at h <;> cases h
  · rw [exec_out_of_range (s := { s with ie := b }) hr, finish_setIe, settle_setIe]
  · rw [exec_query (s := { s with ie := b }) hm hr hx, completeQuery_setIe, settle_setIe]
  · rw [exec_fill (s := { s with ie := b }) hm hr hx, completeFill_setIe, settle_setIe]

/-- CTRL reads IE and zeros. -/
theorem ctrlWord_eq (s : State) : ctrlWord s = if s.ie then 1#32 else 0#32 := by
  unfold ctrlWord; cases s.ie <;> rfl

/-- Settles O16: the write is `writeCtrl`, and a command commutes with setting IE. -/
theorem ctrlWriteSetsEnable : Obligations.CtrlWriteSetsEnable := by
  refine ⟨fun s v => busWrite_ctrl v s, fun s => ?_, fun i s t b h => exec_setIe b h⟩
  rw [busRead_register (by decide) rfl, readRegister, ctrlWord_eq]

theorem irq_iff (s : State) : irq s = true ↔ s.ie = true ∧ s.done = true := Bool.and_eq_true_iff

/-- DONE = 0 holds IRQ low. -/
theorem irq_of_not_done {s : State} (h : s.done = false) : irq s = false := by rw [irq, h, Bool.and_false]

/-- With DONE = 1, IRQ is IE. -/
theorem irq_of_done {s : State} (h : s.done = true) : irq s = s.ie := by rw [irq, h, Bool.and_true]

theorem exec_sets_done {i : Instr} {s t : State} (h : exec i s = .next t) : t.done = true := by
  obtain ⟨code, info, rfl, -, -⟩ | ⟨elems, -, -, rfl⟩ := exec_cases h <;> rw [settle_done, finish_done]

theorem exec_keeps_ie {i : Instr} {s t : State} (h : exec i s = .next t) : t.ie = s.ie := by
  obtain ⟨code, info, rfl, -, -⟩ | ⟨elems, -, -, rfl⟩ := exec_cases h <;> rw [settle_ie, finish_ie]

/-- Settles O32: IRQ follows DONE and IE through each of the events that write one of them. -/
theorem interruptLevel : Obligations.InterruptLevel := by
  refine ⟨irq_iff, fun i s t h => ?_, fun s v h => ⟨_, busWrite_status v s, irq_of_not_done ?_⟩,
    fun s v hb hv => ⟨_, busWrite_cmd v s, irq_of_not_done ?_⟩, fun s v hd => ⟨_, busWrite_ctrl v s, hd, irq_of_done hd⟩,
    fun s hr => ⟨blockReset s, if_pos hr, rfl⟩⟩
  · rw [irq_of_done (exec_sets_done h), exec_keeps_ie h]
  · rw [clearStatus_done, h, Bool.not_true, Bool.and_false]
  · rw [writeCmd_idle v hb, issue_legal s hv, startCmd_done, acceptCmd_done]

end Sys2Proof.Machine

/-! ### From a CMD write to its COMPLETE (spec/10_state.md R23, spec/40_command.md R77, R79) -/

namespace Sys2Proof.Machine

theorem legal_of_decode {v : Word} {i : Instr} (h : decode v = .ok i) : legal v = true := by rw [legal, h]

theorem tick_idle {s : State} (hb : s.busy = false) : tick s = s := if_neg (by simp [hb])

/-- When COMPLETE is due, the step is the meaning of the latched command. -/
theorem step_complete {s : State} {i : Instr} (hr : s.resetIn = false) (he : engineTurn s = true)
    (hi : decode s.latCmd = .ok i) : step s = exec i s := by
  rw [step, if_neg (by simp [hr]), if_pos he, hi]

/-- When it is the host's turn, the step is its line. -/
theorem step_hostLine {s : State} {l : HostLine} (h : HostRuns s l) : step s = runLine l (tick s) := by
  obtain ⟨hr, he, hl⟩ := h
  rw [step, if_neg (by simp [hr]), if_neg (by simp [he]), hostStep, hl]

theorem engineTurn_of_no_wait {s : State} (hb : s.busy = true) (hw : s.wait = 0) : engineTurn s = true := by
  rw [engineTurn, hb, hw]; rfl

/-- A host line that writes a legal word to CMD with BUSY = 0 starts that command. -/
theorem step_issue_legal {s : State} {v : Word} (h : HostRuns s (.write .w32 0x00C (.imm v))) (hb : s.busy = false)
    (hv : legal v = true) : step s = .next (nextLine (startCmd v (acceptCmd v s))) := by
  rw [step_hostLine h, tick_idle hb, runLine, runWrite, busWrite_cmd, writeCmd_idle _ hb, dataOf, issue_legal s hv]

/-- Settles O10: the CMD write draws the supplied delay 0, which makes COMPLETE due at once. -/
theorem issueThenComplete : Obligations.IssueThenComplete := by
  intro s v i ds h hb hi hd
  have hwait : nextDelay (acceptCmd v s) = 0 := by rw [nextDelay, acceptCmd_delays, hd]
  have hturn : engineTurn (nextLine (startCmd v (acceptCmd v s))) = true := engineTurn_of_no_wait rfl hwait
  exact ⟨_, step_issue_legal h hb (legal_of_decode hi), rfl, rfl, rfl, rfl, rfl, step_complete h.1 hturn hi⟩

end Sys2Proof.Machine

/-! ### Accesses to the register space and the buffer windows (spec/20_memory.md R42 to R48) -/

namespace Sys2Proof.Machine

/-! #### Accesses that are not performed -/

theorem registerAccess_eq_false_iff {w : Width} {off : Nat} :
    registerAccess w off = false ↔ w ≠ .w32 ∨ off % 4 ≠ 0 := by
  simp only [registerAccess, Bool.and_eq_false_iff, beq_eq_false_iff_ne]

theorem bufferAccess_eq_false_iff {w : Width} {o size : Nat} :
    bufferAccess w o size = false ↔ o % w.bytes ≠ 0 ∨ size < o + w.bytes := by
  simp only [bufferAccess, Bool.and_eq_false_iff, beq_eq_false_iff_ne, decide_eq_false_iff_not, not_le]

/-- Settles O20: such an access is no register access, and in the register space no read is free. -/
theorem narrowRegisterAccess : Obligations.NarrowRegisterAccess := by
  intro s w off v ho hnarrow
  have hregion := regionOf_registers ho
  have haccess := registerAccess_eq_false_iff.2 hnarrow
  refine ⟨?_, ?_, ?_⟩
  · simp only [busRead, hregion, haccess, Bool.false_eq_true, if_false]
  · simp only [afterRead, readIsFree, hregion, Bool.false_eq_true, if_false]
  · simp only [busWrite, hregion, haccess, Bool.false_eq_true, if_false]

/-! #### Writes into the windows -/

section
variable {s : State} {w : Width} {o : Nat}

theorem writeInWindow_not_performed (v : Word) (ha : bufferAccess w o s.cfg.inSize = false) :
    writeInWindow w o v s = s := by
  rw [writeInWindow, ha]; rfl

theorem writeOutWindow_not_performed (v : Word) (ha : bufferAccess w o s.cfg.outSize = false) :
    writeOutWindow w o v s = s := by
  rw [writeOutWindow, ha]; rfl

theorem writeInWindow_idle (v : Word) (hb : s.busy = false) (ha : bufferAccess w o s.cfg.inSize = true) :
    writeInWindow w o v s = { s with inBuf := memWrite s.inBuf o w.bytes v.toNat } := by
  rw [writeInWindow, ha, hb]; rfl

theorem writeOutWindow_idle (v : Word) (hb : s.busy = false) (ha : bufferAccess w o s.cfg.outSize = true) :
    writeOutWindow w o v s = { s with outBuf := memWrite s.outBuf o w.bytes v.toNat } := by
  rw [writeOutWindow, ha, hb]; rfl

end

/-- Settles O21: in each window the three cases of its write, the last read back by `read_memWrite`. -/
theorem bufferWindowWrites : Obligations.BufferWindowWrites := by
  intro s w o v ho
  rw [busWrite_inWindow ho, busWrite_outWindow ho]
  refine ⟨fun hn => ?_, fun ha hs hb => ?_, fun ha hs hb => ?_, fun hn => ?_, fun ha hs hb => ?_, fun ha hs hb => ?_⟩
  · rw [writeInWindow_not_performed v (bufferAccess_eq_false_iff.2 hn)]
  · rw [writeInWindow_busy v hb (bufferAccess_iff.2 ⟨ha, hs⟩), dropWrite]
  · rw [writeInWindow_idle v hb (bufferAccess_iff.2 ⟨ha, hs⟩)]
    exact ⟨_, rfl, rfl, read_memWrite w.bytes s.inBuf o v.toNat⟩
  · rw [writeOutWindow_not_performed v (bufferAccess_eq_false_iff.2 hn)]
  · rw [writeOutWindow_busy v hb (bufferAccess_iff.2 ⟨ha, hs⟩), dropWrite]
  · rw [writeOutWindow_idle v hb (bufferAccess_iff.2 ⟨ha, hs⟩)]
    exact ⟨_, rfl, rfl, read_memWrite w.bytes s.outBuf o v.toNat⟩

/-! #### Reads from the windows -/

theorem leValue_eq_ofDigits (bytes : List Byte) : leValue bytes = Nat.ofDigits 256 (bytes.map BitVec.toNat) := by
  induction bytes with
  | nil => rfl
  | cons b bs ih => rw [leValue, ih, List.map_cons, Nat.ofDigits_cons]

theorem readBuffer_of_bytes {m : Memory} {w : Width} {o : Nat} {bytes : List Byte} (hlen : bytes.length = w.bytes)
    (h : ∀ k (hk : k < bytes.length), m.read? (o + k) = some bytes[k]) :
    readBuffer m w o = .ok (BitVec.ofNat 32 (leValue bytes)) := by
  rw [readBuffer, ← hlen, memRead_of_bytes m bytes o h]

theorem freeReadOf_lt (w : Width) (draw : Nat) : (freeReadOf w draw).toNat < 256 ^ w.bytes := by
  have hcut : (Config.freeRead draw).toNat % 256 ^ w.bytes < 256 ^ w.bytes := Nat.mod_lt _ (Nat.pow_pos (by decide))
  exact (Nat.mod_le _ _).trans_lt hcut

section
variable {s : State} {w : Width} {o : Nat}

theorem busRead_inWindow_not_performed (ho : o < 0x10000) (ha : bufferAccess w o s.cfg.inSize = false) :
    busRead w (0x10000 + o) s = .ok 0#32 := by
  rw [busRead, regionOf_inWindow ho]; simp only [ha, Bool.false_eq_true, if_false]

theorem busRead_outWindow_not_performed (ho : o < 0x10000) (ha : bufferAccess w o s.cfg.outSize = false) :
    busRead w (0x20000 + o) s = .ok 0#32 := by
  rw [busRead, regionOf_outWindow ho]; simp only [ha, Bool.not_false, if_true]

theorem busRead_inWindow (ho : o < 0x10000) (ha : bufferAccess w o s.cfg.inSize = true) :
    busRead w (0x10000 + o) s = readBuffer s.inBuf w o := by
  rw [busRead, regionOf_inWindow ho]; simp only [ha, if_true]

theorem busRead_outWindow_busy (ho : o < 0x10000) (hb : s.busy = true) (ha : bufferAccess w o s.cfg.outSize = true) :
    busRead w (0x20000 + o) s = .ok (freeReadOf w s.draws) := by
  rw [busRead, regionOf_outWindow ho]; simp only [ha, hb, Bool.not_true, Bool.false_eq_true, if_false, if_true]

theorem busRead_outWindow_idle (ho : o < 0x10000) (hb : s.busy = false) (ha : bufferAccess w o s.cfg.outSize = true) :
    busRead w (0x20000 + o) s = readBuffer s.outBuf w o := by
  rw [busRead, regionOf_outWindow ho]; simp only [ha, hb, Bool.not_true, Bool.false_eq_true, if_false]

end

/-- Settles O22: in each window the cases of its read, a performed one giving the value of its bytes. -/
theorem bufferWindowReads : Obligations.BufferWindowReads := by
  intro s w o bytes ho hlen
  rw [← leValue_eq_ofDigits]
  refine ⟨fun hn => ?_, fun ha hs hbytes => ?_, fun hn => ?_, fun ha hs hb => ?_, fun ha hs hb hbytes => ?_⟩
  · exact busRead_inWindow_not_performed ho (bufferAccess_eq_false_iff.2 hn)
  · rw [busRead_inWindow ho (bufferAccess_iff.2 ⟨ha, hs⟩), readBuffer_of_bytes hlen hbytes]
  · exact busRead_outWindow_not_performed ho (bufferAccess_eq_false_iff.2 hn)
  · exact ⟨_, busRead_outWindow_busy ho hb (bufferAccess_iff.2 ⟨ha, hs⟩), freeReadOf_lt w s.draws⟩
  · rw [busRead_outWindow_idle ho hb (bufferAccess_iff.2 ⟨ha, hs⟩), readBuffer_of_bytes hlen hbytes]

/-! #### Reads have no side effects (R44) -/

/-- Only a free read depends on the host's position and temporary or the model's own counters. -/
theorem busRead_of_frame {s t : State} {w : Width} {off : Nat}
    (ht : t = { s with pos := t.pos, temp := t.temp, wait := t.wait, draws := t.draws })
    (hfree : readIsFree w off s = false) : busRead w off t = busRead w off s := by
  rw [ht]
  cases hregion : regionOf off with
  | registers o => simp only [busRead, hregion]; rfl
  | inWindow o => simp only [busRead, hregion]
  | outside => simp only [busRead, hregion]
  | outWindow o =>
    simp only [readIsFree, hregion, Bool.and_eq_false_iff] at hfree
    obtain hb | ha := hfree
    · simp only [busRead, hregion, hb, Bool.false_eq_true, if_false]
    · simp only [busRead, hregion, ha, Bool.not_false, if_true]

/-- What the step of a read line leaves: the read's own state with the line passed and the value in `t`. -/
theorem step_readLine {s t : State} {w : Width} {off : Nat} (h : HostRuns s (.read w off)) (hstep : step s = .next t) :
    ∃ v, t = nextLine { afterRead w off (tick s) with temp := v } := by
  rw [step_hostLine h, runLine, runRead] at hstep
  split at hstep
  · cases hstep; exact ⟨_, rfl⟩
  · cases hstep

theorem tick_frame (s : State) : tick s = { s with wait := (tick s).wait } := by unfold tick; split <;> rfl

theorem afterRead_frame (w : Width) (off : Nat) (s : State) :
    afterRead w off s = { s with draws := (afterRead w off s).draws } := by unfold afterRead; split <;> rfl

/-- Settles O24: the step is `tick`, `afterRead` and the host's own fields, and none of these is read. -/
theorem hostReadsChangeNothing : Obligations.HostReadsChangeNothing := by
  intro s t w off h hstep
  have hframe : t = { s with pos := s.pos + 1, temp := t.temp, wait := t.wait, draws := t.draws } := by
    obtain ⟨v, rfl⟩ := step_readLine h hstep
    rw [afterRead_frame, tick_frame]; rfl
  refine ⟨hframe, fun w' off' hfree => busRead_of_frame ?_ hfree⟩
  rw [hframe]

/-! #### Mixed widths (R48) -/

/-- A byte write with BUSY = 0 stores that byte. -/
theorem busWrite_byte {s : State} {o : Nat} (b : Byte) (hb : s.busy = false) (ho : o < 0x10000) (hs : o < s.cfg.inSize) :
    busWrite .w8 (0x10000 + o) (b.zeroExtend 32) s = .next { s with inBuf := s.inBuf.write o b } := by
  have hbyte : BitVec.ofNat 8 (b.zeroExtend 32).toNat = b := by
    apply BitVec.eq_of_toNat_eq
    simp only [BitVec.toNat_ofNat, BitVec.truncate_eq_setWidth, BitVec.toNat_setWidth]
    omega
  rw [busWrite_inWindow ho, writeInWindow_idle _ hb (bufferAccess_iff.2 ⟨Nat.mod_one o, hs⟩)]
  simp only [Width.bytes, memWrite, hbyte]

theorem toNat_append_byte {n : Nat} (x : BitVec n) (b : Byte) : (x ++ b).toNat = b.toNat + 256 * x.toNat := by
  rw [BitVec.toNat_append, ← Nat.shiftLeft_add_eq_or_of_lt b.isLt, Nat.shiftLeft_eq, Nat.mul_comm, Nat.add_comm]

/-- A word whose value is the little-endian value of written bytes is what a performed IN_BUF read of them gives. -/
theorem busRead_inBuf_bytes {s : State} {w : Width} {o : Nat} {bytes : List Byte} {v : Word} (ho : o < 0x10000)
    (ha : bufferAccess w o s.cfg.inSize = true) (hlen : bytes.length = w.bytes)
    (h : ∀ k (hk : k < bytes.length), s.inBuf.read? (o + k) = some bytes[k]) (hv : v.toNat = leValue bytes) :
    busRead w (0x10000 + o) s = .ok v := by
  rw [busRead_inWindow ho ha, readBuffer_of_bytes hlen h, ← hv, BitVec.ofNat_toNat, BitVec.setWidth_eq]

/-- Four byte writes to consecutive offsets, lowest first. -/
theorem read_four_writes (m : Memory) (o : Nat) (b0 b1 b2 b3 : Byte) :
    ∀ k (hk : k < [b0, b1, b2, b3].length),
      ((((m.write o b0).write (o + 1) b1).write (o + 2) b2).write (o + 3) b3).read? (o + k) = some [b0, b1, b2, b3][k] := by
  intro k hk
  simp only [List.length_cons, List.length_nil] at hk
  interval_cases k <;> simp [read_write]

/-- Settles O25: the four bytes stand at their offsets, and each read takes the value of those it covers. -/
theorem byteWritesReadBackWide : Obligations.ByteWritesReadBackWide := by
  intro s o b0 b1 b2 b3 hb ha hs ho
  have hlow : ∀ k < 4, o + k < 0x10000 := by omega
  have hin : ∀ k < 4, o + k < s.cfg.inSize := by omega
  have hbytes := read_four_writes s.inBuf o b0 b1 b2 b3
  refine ⟨_, _, _, _, busWrite_byte b0 hb (hlow 0 (by decide)) (hin 0 (by decide)),
    busWrite_byte b1 hb (hlow 1 (by decide)) (hin 1 (by decide)),
    busWrite_byte b2 hb (hlow 2 (by decide)) (hin 2 (by decide)),
    busWrite_byte b3 hb (hlow 3 (by decide)) (hin 3 (by decide)), ?_, ?_, ?_⟩
  · refine busRead_inBuf_bytes (hlow 0 (by decide)) (bufferAccess_iff.2 ⟨ha, hs⟩) rfl hbytes ?_
    simp only [toNat_append_byte, leValue, Nat.mul_zero, Nat.add_zero]
  · have ha2 : (o + 2) % 2 = 0 := by omega
    refine busRead_inBuf_bytes (bytes := [b2, b3]) (hlow 2 (by decide)) (bufferAccess_iff.2 ⟨ha2, hs⟩) rfl
      (fun k hk => ?_) ?_
    · rw [Nat.add_assoc, Nat.add_comm 2]
      exact hbytes (k + 2) (Nat.add_lt_add_right hk 2)
    · rw [BitVec.toNat_setWidth_of_le (by decide), toNat_append_byte]
      simp only [leValue, Nat.mul_zero, Nat.add_zero]
  · have hs1 : o + 1 < s.cfg.inSize := hin 1 (by decide)
    refine busRead_inBuf_bytes (bytes := [b1]) (hlow 1 (by decide)) (bufferAccess_iff.2 ⟨Nat.mod_one _, hs1⟩) rfl
      (fun k hk => ?_) ?_
    · obtain rfl : k = 0 := Nat.lt_one_iff.1 hk
      exact hbytes 1 (by simp)
    · exact BitVec.toNat_setWidth_of_le (by decide)

end Sys2Proof.Machine

/-! ### The decoder reads the fields of R58, and the encoder writes them (spec/30_encoding.md R58, R63, R65) -/

namespace Sys2Proof

/-- The row of a UNIT and a DIR, in a mode, is the command with these three fields. -/
theorem commandOf_eq_some_iff {u : Nat} {d : Bool} {m : Mode} {i : Instr} :
    commandOf u d m = some i ↔ i.unit = u ∧ i.dir = d ∧ i.mode = m := by
  constructor
  · intro h
    unfold commandOf at h
    split at h
    case h_11 => cases h
    all_goals cases h; exact ⟨rfl, rfl, rfl⟩
  · rintro ⟨rfl, rfl, rfl⟩
    cases i <;> rfl

/-- Every UNIT in use has a row for each DIR and mode. -/
theorem exists_instr_of_unit {u : Nat} (hu : u ∈ [1, 2, 3, 4, 5]) (d : Bool) (m : Mode) :
    ∃ i : Instr, i.unit = u ∧ i.dir = d ∧ i.mode = m := by
  simp only [← commandOf_eq_some_iff, ← Option.isSome_iff_exists]
  fin_cases hu <;> cases d <;> rfl

/-- The UNIT of every command is in use. -/
theorem unit_in_use (i : Instr) : i.unit ∈ [1, 2, 3, 4, 5] := by
  cases i <;> simp [Instr.unit]

/-- The mode is a fill when bit 8 is set. -/
theorem fillField_eq_fill_iff {v : Word} : fillField v = .fill ↔ v.getLsbD 8 = true := by
  unfold fillField
  split
  · exact iff_of_true rfl ‹_›
  · exact iff_of_false nofun ‹_›

/-- What a word decodes to: its reserved bits are clear and its fields are the command's. -/
theorem decode_eq_ok_iff {v : Word} {i : Instr} :
    decode v = .ok i ↔ v &&& reservedMask = 0#32 ∧
      i.unit = (v.extractLsb' 4 3).toNat ∧ i.dir = v.getLsbD 0 ∧ i.mode = fillField v := by
  rw [← commandOf_eq_some_iff, decode]
  by_cases hmask : v &&& reservedMask = 0#32
  · rw [if_pos hmask]
    cases commandOf (v.extractLsb' 4 3).toNat (v.getLsbD 0) (fillField v) <;> simp [hmask]
  · simp [hmask]

/-- A word is its UNIT, its DIR and its FILL when its reserved bits are clear. -/
theorem eq_of_fields {v w : Word} (hv : v &&& reservedMask = 0#32) (hw : w &&& reservedMask = 0#32)
    (hunit : v.extractLsb' 4 3 = w.extractLsb' 4 3) (hdir : v.getLsbD 0 = w.getLsbD 0)
    (hfill : v.getLsbD 8 = w.getLsbD 8) : v = w := by
  have hbits : ∀ k < 32, reservedMask.getLsbD k = true ∨ k = 0 ∨ k = 8 ∨ 4 ≤ k ∧ k < 7 := by decide
  have hclear {x : Word} {k : Nat} (hx : x &&& reservedMask = 0#32) (hk : reservedMask.getLsbD k = true) :
      x.getLsbD k = false := by
    simpa [hk] using congrArg (BitVec.getLsbD · k) hx
  apply BitVec.eq_of_getLsbD_eq
  intro k hk
  obtain hr | rfl | rfl | ⟨hlo, hhi⟩ := hbits k hk
  · rw [hclear hv hr, hclear hw hr]
  · exact hdir
  · exact hfill
  · have hbit := congrArg (BitVec.getLsbD · (k - 4)) hunit
    simpa [show k - 4 < 3 by omega, show 4 + (k - 4) = k by omega] using hbit

/-- Two words that decode to one command are the same word. -/
theorem decode_inj {v w : Word} {i : Instr} (hv : decode v = .ok i) (hw : decode w = .ok i) : v = w := by
  obtain ⟨hv0, hvu, hvd, hvm⟩ := decode_eq_ok_iff.1 hv
  obtain ⟨hw0, hwu, hwd, hwm⟩ := decode_eq_ok_iff.1 hw
  refine eq_of_fields hv0 hw0 (BitVec.eq_of_toNat_eq (hvu.symm.trans hwu)) (hvd.symm.trans hwd) ?_
  rw [Bool.eq_iff_iff, ← fillField_eq_fill_iff, ← fillField_eq_fill_iff, ← hvm, ← hwm]

/-- The word of a command decodes to it, mode by mode. -/
theorem decode_encode (i : Instr) : decode (encode i) = .ok i := by
  cases i with
  | _ m => cases m <;> decide

/-- Settles O5: the word of a command decodes to it, and no other word does. -/
theorem decodeInvertsEncode : Obligations.DecodeInvertsEncode := by
  intro v i
  exact ⟨fun h => decode_inj h (decode_encode i), fun h => h ▸ decode_encode i⟩

/-- Settles O6: legality is the mask and a UNIT that has rows, and the decoder answers the fields themselves. -/
theorem decodeReadsFields : Obligations.DecodeReadsFields := by
  intro v
  refine ⟨⟨?_, ?_⟩, ?_⟩
  · rintro ⟨i, h⟩
    obtain ⟨hmask, hunit, -, -⟩ := decode_eq_ok_iff.1 h
    exact ⟨hmask, hunit ▸ unit_in_use i⟩
  · rintro ⟨hmask, hunit⟩
    obtain ⟨i, hi⟩ := exists_instr_of_unit hunit (v.getLsbD 0) (fillField v)
    exact ⟨i, decode_eq_ok_iff.2 ⟨hmask, hi⟩⟩
  · intro i h
    obtain ⟨-, hunit, hdir, hmode⟩ := decode_eq_ok_iff.1 h
    exact ⟨hunit, hdir, hmode ▸ fillField_eq_fill_iff⟩

/-! #### The match under the mask that leaves FILL out (R63) -/

/-- The words that match a word without FILL are that word and the one with FILL set. -/
theorem matches_without_fill_iff {v q : Word} (hq : q.getLsbD 8 = false) :
    v &&& 0xFFFFFEFF#32 = q ↔ v = q ∨ v = q ||| 0x100#32 := by
  have hsplit (x : Word) : x = x &&& 0xFFFFFEFF#32 ||| if x.getLsbD 8 then 0x100#32 else 0#32 := by
    rw [show 0x100#32 = BitVec.twoPow 32 8 by decide, ← BitVec.and_twoPow, ← BitVec.and_or_distrib_left]
    exact BitVec.and_allOnes.symm
  have hclear : q &&& 0xFFFFFEFF#32 = q := by
    have h := hsplit q
    rw [hq, if_neg Bool.false_ne_true, BitVec.or_zero] at h
    exact h.symm
  constructor
  · rintro rfl
    have hv := hsplit v
    split at hv
    · exact .inr hv
    · exact .inl (hv.trans BitVec.or_zero)
  · rintro (rfl | rfl)
    · exact hclear
    · rw [BitVec.and_or_distrib_right, hclear]
      exact BitVec.or_zero

namespace Machine

/-- A row of the opcode map, from its two words, which differ in FILL alone, and its other columns. -/
theorem isTableRow_of {mnemonic : String} {cmd : Mode → Instr} {unit : Nat} {dir : Bool} {query fill : Word}
    {eIn eOut : Nat} (hquery : encode (cmd .query) = query) (hfill : encode (cmd .fill) = fill)
    (hbit : query.getLsbD 8 = false) (hwords : fill = query ||| 0x100#32)
    (hcols : ∀ m, (cmd m).mnemonic = mnemonic ∧ (cmd m).unit = unit ∧ (cmd m).dir = dir ∧ (cmd m).eIn = eIn ∧
      (cmd m).eOut = eOut) : IsTableRow mnemonic cmd unit dir query fill eIn eOut := by
  refine ⟨hquery, hfill, hcols, fun v => ?_⟩
  rw [matches_without_fill_iff hbit, ← hwords, ← hquery, ← hfill]
  simp only [← decodeInvertsEncode v _]
  constructor
  · rintro (h | h)
    · exact ⟨_, h⟩
    · exact ⟨_, h⟩
  · rintro ⟨m, h⟩
    cases m with
    | query => exact .inl h
    | fill => exact .inr h

/-- Settles O7: each row's columns are read off the tables, and its match is that of its two words. -/
theorem opcodeMapRows : Obligations.OpcodeMapRows := by
  refine ⟨?_, ?_, ?_, ?_, ?_, ?_, ?_, ?_, ?_, ?_⟩ <;>
    exact isTableRow_of rfl rfl rfl rfl fun _ => ⟨rfl, rfl, rfl, rfl, rfl⟩

/-- Settles O4: nine closed words, each decoded by evaluation. -/
theorem sampleWordsDecode : Obligations.SampleWordsDecode := by
  unfold Obligations.SampleWordsDecode
  decide

end Machine

end Sys2Proof

/-! ### The lines of a host script (spec/30_encoding.md R70) -/

namespace Sys2Proof.Machine

@[simp] theorem issue_pos (v : Word) (s : State) : (issue v s).pos = s.pos := by
  unfold issue
  split
  · simp only [startCmd_pos, acceptCmd_pos]
  · simp only [illegalCmd_pos, acceptCmd_pos]

/-- A bus write does not move the host. -/
theorem busWrite_keeps_pos {w : Width} {off : Nat} {v : Word} {s t : State}
    (h : busWrite w off v s = .next t) : t.pos = s.pos := by
  obtain rfl | ⟨-, rfl⟩ | ⟨_, rfl, -⟩ | ⟨_, rfl, -⟩ | ⟨-, -, rfl⟩ | ⟨-, -, rfl⟩ | ⟨-, -, rfl⟩ |
    ⟨_, -, -, -, rfl⟩ | ⟨_, -, -, -, rfl⟩ := busWrite_cases h
  case inr.inr.inr.inr.inl => exact issue_pos v s
  all_goals rfl

/-- What a host access reads does not depend on the delay. -/
theorem busRead_tick (w : Width) (off : Nat) (s : State) : busRead w off (tick s) = busRead w off s := by
  rw [tick_frame]; rfl

theorem dataOf_tick (d : HostData) (s : State) : dataOf d (tick s) = dataOf d s := by
  cases d with
  | imm v => rfl
  | temp => exact tick_temp s

theorem jumpTo_tick {l j : Nat} {s : State} (h : labelIndex s.script l = some j) :
    jumpTo l (tick s) = .next { tick s with pos := j } := by
  rw [← tick_script s] at h
  rw [jumpTo, h]

theorem nextLine_tick (s : State) : nextLine (tick s) = { tick s with pos := s.pos + 1 } := by
  rw [nextLine, tick_pos]

/-- Settles O9: one case for each kind of line, run after the delay has gone down. -/
theorem hostLinesRun : Obligations.HostLinesRun := by
  intro s
  refine ⟨fun w off d u h hu => ?_, fun w off v h hv => ?_, fun k l j h hl => ?_, fun l j h hl => ?_,
    fun l j h hl => ?_, fun l h => ?_⟩
  · have hpos : u.pos = s.pos := (busWrite_keeps_pos hu).trans (tick_pos s)
    rw [step_hostLine h, runLine, runWrite, dataOf_tick, hu, ← hpos]; rfl
  · rw [step_hostLine h, runLine, runRead, busRead_tick, hv]
    refine ⟨_, rfl, rfl, ?_⟩
    simp only [nextLine_pos, afterRead_pos, tick_pos]
  · rw [step_hostLine h, runLine, tick_temp, jumpTo_tick hl, nextLine_tick]
    split <;> rfl
  · rw [step_hostLine h, runLine, tick_temp, jumpTo_tick hl, nextLine_tick]
    split <;> rfl
  · rw [step_hostLine h, runLine, jumpTo_tick hl]
  · rw [step_hostLine h, runLine, nextLine_tick]

end Sys2Proof.Machine

/-! ### Issuing a command (spec/40_command.md R75 to R77) -/

namespace Sys2Proof.Machine

theorem busWrite_cmd_legal {s : State} {v : Word} (hb : s.busy = false) (hv : legal v = true) :
    busWrite .w32 0x00C v s = .next (startCmd v (acceptCmd v s)) := by
  rw [busWrite_cmd, writeCmd_idle v hb, issue_legal s hv]

theorem busWrite_cmd_illegal {s : State} {v : Word} (hb : s.busy = false) (hv : legal v = false) :
    busWrite .w32 0x00C v s = .next (illegalCmd (acceptCmd v s)) := by
  rw [busWrite_cmd, writeCmd_idle v hb, issue_illegal s hv]

theorem busRead_cmd (s : State) : busRead .w32 0x00C s = .ok s.cmd := busRead_register (by decide) rfl s

/-- Settles O12: the write is `startCmd` after `acceptCmd`, and each clause is one field of these. -/
theorem legalCmdWriteStarts : Obligations.LegalCmdWriteStarts := by
  intro s v hb hv
  refine ⟨_, busWrite_cmd_legal hb hv, ?_⟩
  simp [busRead_cmd]

/-- Settles O13: the write is `illegalCmd` after `acceptCmd`, which together set four fields and leave BUSY at 0. -/
theorem illegalCmdWriteEnds : Obligations.IllegalCmdWriteEnds := by
  intro s v hb hv
  exact ⟨_, busWrite_cmd_illegal hb hv, rfl, rfl, rfl, hb, irq_of_done rfl, rfl, busRead_cmd _, rfl⟩

end Sys2Proof.Machine

/-! ### When COMPLETE is due (spec/40_command.md R72, R83) -/

namespace Sys2Proof.Machine

theorem engineTurn_of_hostIdle {s : State} (hb : s.busy = true) (hi : hostIdle s = true) : engineTurn s = true := by
  rw [engineTurn, hb, hi, Bool.or_true, Bool.and_true]

/-- While a command runs and its COMPLETE is not due, the delay has not run out and the host has a line left. -/
theorem engineTurn_eq_false_iff {s : State} (hb : s.busy = true) :
    engineTurn s = false ↔ s.wait ≠ 0 ∧ hostIdle s = false := by
  simp [engineTurn, hb]

theorem exists_decode_of_legal {v : Word} (h : legal v = true) : ∃ i, decode v = .ok i := by
  unfold legal at h
  split at h
  · exact ⟨_, by assumption⟩
  · cases h

/-- A legal word placed by `withFetchWord` stands issued, its COMPLETE next. -/
theorem withFetchWord_legal {v : Word} (s : State) (h : legal v = true) :
    s.withFetchWord 32 v.toNat = placeLegal v s := by
  rw [State.withFetchWord, Nat.mod_eq_of_lt v.isLt, BitVec.ofNat_toNat, BitVec.setWidth_eq, placeCommand, if_pos h]

/-- Settles O8: the branches of `step`, and a placed word is latched with no delay left. -/
theorem stepRunsLatchedCommand : Obligations.StepRunsLatchedCommand := by
  refine ⟨fun s i => step_complete, fun s hr he => ?_, fun s v i hi => ?_⟩
  · rw [step, if_neg (by simp [hr]), if_neg (by simp [he])]
  · rw [withFetchWord_legal s (legal_of_decode hi)]
    exact step_complete rfl (engineTurn_of_no_wait rfl rfl) hi

/-- Only a CMD write draws a new delay, and the busy lock drops it. -/
theorem busWrite_keeps_wait {w : Width} {off : Nat} {v : Word} {s t : State} (hb : s.busy = true)
    (h : busWrite w off v s = .next t) : t.wait = s.wait := by
  obtain rfl | ⟨-, rfl⟩ | ⟨_, rfl, -⟩ | ⟨_, rfl, -⟩ | ⟨hidle, -, rfl⟩ | ⟨-, -, rfl⟩ | ⟨-, -, rfl⟩ |
    ⟨_, -, -, -, rfl⟩ | ⟨_, -, -, -, rfl⟩ := busWrite_cases h
  case inr.inr.inr.inr.inl => simp [hb] at hidle
  all_goals rfl

theorem runLine_keeps_wait {l : HostLine} {s t : State} (hb : s.busy = true) (h : runLine l s = .next t) :
    t.wait = s.wait := by
  obtain ⟨w, off, d, u, -, hu, rfl⟩ | ⟨w, off, v, -, -, rfl⟩ | ⟨p, rfl⟩ := runLine_cases h
  · exact (nextLine_wait u).trans (busWrite_keeps_wait hb hu)
  · exact afterRead_wait w off s
  · rfl

/-- With a line left, a host step takes one from the delay of a running command. -/
theorem hostStep_wait {s t : State} (hb : s.busy = true) (hi : hostIdle s = false) (h : hostStep s = .next t) :
    t.wait = s.wait - 1 := by
  obtain ⟨hnone, -⟩ | ⟨l, -, hl⟩ := hostStep_cases h
  · simp [hostIdle, hnone] at hi
  · rw [runLine_keeps_wait ((tick_busy s).trans hb) hl, tick_wait, if_pos hb]

theorem exec_clears_busy {i : Instr} {s t : State} (h : exec i s = .next t) : t.busy = false := by
  obtain ⟨code, info, rfl, -, -⟩ | ⟨elems, -, -, rfl⟩ := exec_cases h <;> rw [settle_busy, finish_busy]

/-- Settles O58: the latched word is legal by the invariant, and a step that leaves BUSY = 1 is the host's. -/
theorem delayRunsDown : Obligations.DelayRunsDown := by
  intro s hs hb hr
  refine ⟨fun hdue => ?_, fun t ht hbusy => ?_⟩
  · obtain ⟨i, hi⟩ := exists_decode_of_legal (hs.busyLegal hb)
    have hturn : engineTurn s = true := hdue.elim (engineTurn_of_no_wait hb) (engineTurn_of_hostIdle hb)
    exact ⟨i, hi, step_complete hr hturn hi⟩
  · obtain ⟨hreset, -⟩ | ⟨-, -, i, -, hi⟩ | ⟨-, hturn, hh⟩ := step_cases ht
    · simp [hr] at hreset
    · simp [exec_clears_busy hi] at hbusy
    · obtain ⟨hwait, hidle⟩ := (engineTurn_eq_false_iff hb).1 hturn
      rw [hostStep_wait hb hidle hh, Nat.sub_add_cancel (Nat.pos_of_ne_zero hwait)]

end Sys2Proof.Machine

/-! ### The frame of every command (spec/40_command.md R78 to R85) -/

namespace Sys2Proof.Machine

/-- Settles O26: the range check comes before anything is read. -/
theorem inputOutOfRange : Obligations.InputOutOfRange := by
  intro i s h
  exact ⟨_, exec_out_of_range h, by simp [endedWith], by simp⟩

theorem settle_draws (i : Instr) (u : State) (h : i.positional = false) : (settle i u).draws = u.draws := by
  simp [settle, h]

/-- Settling touches the accumulator and its free-value counter alone. -/
theorem settle_frame (i : Instr) (u : State) :
    settle i u = { u with acc := (settle i u).acc, draws := (settle i u).draws } := by
  unfold settle; split <;> rfl

/-- The fields a command that has a next state can change. -/
theorem exec_frame {i : Instr} {s t : State} (h : exec i s = .next t) :
    t = { s with busy := false, done := true, code := t.code, result := t.result, outBuf := t.outBuf, acc := t.acc,
                 draws := t.draws } := by
  obtain ⟨code, info, rfl, -, -⟩ | ⟨elems, -, -, rfl⟩ := exec_cases h <;> rw [settle_frame] <;> rfl

/-- A command that is not positional leaves the accumulator and draws no free value (spec/10_state.md R34). -/
theorem exec_keeps_acc {i : Instr} {s t : State} (hp : i.positional = false) (h : exec i s = .next t) :
    t.acc = s.acc ∧ t.draws = s.draws := by
  obtain ⟨code, info, rfl, -, -⟩ | ⟨elems, -, -, rfl⟩ := exec_cases h <;>
    exact ⟨settle_acc i _ hp, settle_draws i _ hp⟩

/-- A length within the capacity is RESULT itself: OUT_CAP is a 32-bit number. -/
theorem toNat_result_of_le_capacity {n e : Nat} {s : State} (h : n ≤ capacity e s) : (BitVec.ofNat 32 n).toNat = n :=
  Nat.mod_eq_of_lt ((h.trans (Nat.min_le_left _ _)).trans_lt s.latOutCap.isLt)

/-- A query, and a fill that does not end OK, leave OUT_BUF as it was. -/
theorem exec_keeps_outBuf {i : Instr} {s t : State} (h : exec i s = .next t) (hquiet : i.mode = .query ∨ t.code ≠ .ok) :
    t.outBuf = s.outBuf := by
  obtain ⟨code, info, rfl, -, -⟩ | ⟨elems, hm, -, rfl⟩ := exec_cases h
  · rw [settle_outBuf, finish_outBuf]
  · simp [hm] at hquiet

/-- A fill that ends OK stores RESULT elements from offset 0 on, within OUT_CAP and OUT_SIZE. -/
theorem exec_fill_outBuf {i : Instr} {s t : State} (h : exec i s = .next t) (hm : i.mode = .fill) (hok : t.code = .ok) :
    t.result.toNat ≤ s.latOutCap.toNat ∧ t.result.toNat * i.eOut ≤ s.cfg.outSize ∧
    (∀ a < t.result.toNat * i.eOut, ∃ b, t.outBuf.read? a = some b) ∧
    (∀ a, t.result.toNat * i.eOut ≤ a → t.outBuf.read? a = s.outBuf.read? a) := by
  obtain ⟨code, info, rfl, -, hquery⟩ | ⟨elems, -, hcap, rfl⟩ := exec_cases h
  · rw [settle_code, finish_code] at hok
    simp [hquery hok] at hm
  · simp only [settle_result, finish_result, settle_outBuf, finish_outBuf, toNat_result_of_le_capacity hcap,
      read_outElems _ _ _ _ (eOut_pos i)]
    exact ⟨hcap.trans (Nat.min_le_left _ _), length_mul_le_outSize hcap, fun a ha => ⟨_, if_pos ha⟩,
      fun a ha => if_neg (Nat.not_lt.2 ha)⟩

/-- Settles O27: `exec_frame` for the registers and the host, and what a fill stores for OUT_BUF. -/
theorem commandFrame : Obligations.CommandFrame := by
  intro i s t h
  have hframe := exec_frame h
  refine ⟨exec_clears_busy h, exec_sets_done h, ?_, ?_, ?_, ?_, ?_, ?_, ?_, ?_, ?_, ?_, ?_, ?_, ?_, ?_, ?_,
    fun hp => exec_keeps_acc hp h, exec_keeps_outBuf h, exec_fill_outBuf h⟩ <;> rw [hframe]

end Sys2Proof.Machine

/-! ### Lengths and elements of the codecs' outputs (spec/40_command.md R73, R80) -/

namespace Sys2Proof.Machine

theorem charOf_lt (alphabet : List Byte) (d : Nat) : charOf alphabet d < 256 := (alphabet.getD d 0#8).isLt

theorem map_charOf_lt (alphabet : List Byte) (ds : List Nat) : ∀ v ∈ ds.map (charOf alphabet), v < 256 := by
  intro v hv
  obtain ⟨d, -, rfl⟩ := List.mem_map.1 hv
  exact charOf_lt alphabet d

theorem eIn_pos (i : Instr) : 0 < i.eIn := by cases i <;> simp [Instr.eIn]

/-- A text the validation loop accepts is the characters of its digits. -/
theorem digitValues_ok {alphabet : List Byte} {i : Nat} {text ds : List Nat} (h : digitValues alphabet i text = .ok ds) :
    ds.map (charOf alphabet) = text ∧ ∀ d ∈ ds, d < alphabet.length := by
  obtain ⟨ds', hok, hmap, hlt⟩ | ⟨j, -, herr⟩ := digitValues_cases alphabet i text
  · rw [hok] at h; cases h; exact ⟨hmap, hlt⟩
  · rw [herr] at h; cases h

theorem length_of_digitValues_ok {alphabet : List Byte} {i : Nat} {text ds : List Nat}
    (h : digitValues alphabet i text = .ok ds) : ds.length = text.length := by
  obtain ⟨rfl, -⟩ := digitValues_ok h
  rw [List.length_map]

/-- What B64.DEC answers is the groups of the digits before the padding (spec/42_base64.md R102). -/
theorem fillB64Dec_ok {alphabet : List Byte} {pad : Byte} {text elems : List Nat}
    (h : fillB64Dec alphabet pad text = .ok elems) :
    ∃ ds, ds.length = text.length - padCount pad text ∧ (chunks 4 ds).flatMap decodeGroup = elems := by
  unfold fillB64Dec at h
  split at h
  · cases h
  · obtain ⟨ds, hds, helems⟩ := map_ok h
    refine ⟨ds, (length_of_digitValues_ok hds).trans ?_, helems⟩
    rw [List.length_take, Nat.min_eq_left (Nat.sub_le _ _)]

/-- A group has at most k elements, all of them from the sequence. -/
theorem of_mem_chunks {α : Type} {k : Nat} (hk : 0 < k) {xs g : List α} (h : g ∈ chunks k xs) :
    g.length ≤ k ∧ ∀ v ∈ g, v ∈ xs := by
  obtain ⟨j, hj, rfl⟩ := List.getElem_of_mem h
  rw [getElem_chunks hk]
  exact ⟨List.length_take_le _ _, fun v hv => List.mem_of_mem_drop (List.mem_of_mem_take hv)⟩

/-- A wide lane of narrow lanes of wn bits. -/
theorem laneOf_lt {wn : Nat} {xs : List Nat} (h : ∀ v ∈ xs, v < 2 ^ wn) : laneOf wn xs < 2 ^ (wn * xs.length) := by
  induction xs with
  | nil => simp [laneOf]
  | cons x xs ih =>
    have hx : x < 2 ^ wn := h x List.mem_cons_self
    have hrest : laneOf wn xs + 1 ≤ 2 ^ (wn * xs.length) := ih fun v hv => h v (List.mem_cons_of_mem x hv)
    calc x + 2 ^ wn * laneOf wn xs < 2 ^ wn * (laneOf wn xs + 1) := by rw [Nat.mul_succ]; omega
      _ ≤ 2 ^ wn * 2 ^ (wn * xs.length) := Nat.mul_le_mul_left _ hrest
      _ = 2 ^ (wn * (xs.length + 1)) := by rw [← pow_add, Nat.mul_succ, Nat.add_comm]

theorem packLanes_lt {wn : Nat} (hwn : wn = 8 ∨ wn = 16) {x : List Nat} (h : ∀ v ∈ x, v < 2 ^ wn) :
    ∀ w ∈ packLanes wn x, w < 2 ^ 32 := by
  intro w hw
  obtain ⟨g, hg, rfl⟩ := List.mem_map.1 hw
  obtain ⟨hlen, hmem⟩ := of_mem_chunks (by obtain rfl | rfl := hwn <;> decide) hg
  have hbits : wn * g.length ≤ 32 := (Nat.mul_le_mul_left wn hlen).trans (Nat.mul_div_le 32 wn)
  exact (laneOf_lt fun v hv => h v (hmem v hv)).trans_le (Nat.pow_le_pow_right (by decide) hbits)

theorem subLanes_lt {wn w : Nat} : ∀ v ∈ subLanes wn w, v < 2 ^ wn := by
  intro v hv
  obtain ⟨j, -, rfl⟩ := List.mem_map.1 hv
  exact Nat.mod_lt _ (Nat.two_pow_pos wn)

theorem unpackLanes_lt (wn : Nat) (ws : List Nat) : ∀ v ∈ unpackLanes wn ws, v < 2 ^ wn := by
  induction ws with
  | nil => exact nofun
  | cons w ws ih =>
    cases ws with
    | nil => exact fun v hv => subLanes_lt v (List.mem_of_mem_take hv)
    | cons u us => exact fun v hv => (List.mem_append.1 hv).elim (subLanes_lt v) (ih v)

theorem length_unpackLanes_le (wn : Nat) (ws : List Nat) : (unpackLanes wn ws).length ≤ 32 / wn * ws.length := by
  induction ws with
  | nil => exact Nat.zero_le _
  | cons w ws ih =>
    cases ws with
    | nil => simp [unpackLanes]
    | cons u us =>
      rw [unpackLanes, List.length_append, length_subLanes, List.length_cons, Nat.mul_succ]
      omega

theorem encodeBlock_lt {alphabet : List Byte} {pad : Byte} {blk : List Nat} :
    ∀ v ∈ encodeBlock alphabet pad blk, v < 256 := by
  intro v hv
  obtain hreal | hpad := List.mem_append.1 hv
  · exact map_charOf_lt alphabet _ v (List.mem_of_mem_take hreal)
  · rw [List.eq_of_mem_replicate hpad]
    exact pad.isLt

theorem decodeGroup_lt {grp : List Nat} : ∀ v ∈ decodeGroup grp, v < 256 := by
  intro v hv
  have hmem := List.mem_of_mem_take hv
  simp only [List.mem_cons, List.not_mem_nil, or_false] at hmem
  obtain rfl | rfl | rfl := hmem <;> exact Nat.mod_lt _ (by decide)

theorem minBeBytes_lt {n v : Nat} (h : v ∈ minBeBytes n) : v < 256 := digitsOf_lt (by decide) h

/-- A digit sequence in a base up to 256 has a value of no more bytes than it has digits. -/
theorem length_minBeBytes_le {b : Nat} {ds : List Nat} (hb : 2 ≤ b) (hb' : b ≤ 256) (hd : ∀ d ∈ ds, d < b) :
    (minBeBytes (valueOf b ds)).length ≤ ds.length :=
  length_digitsOf_le (by decide) ((valueOf_lt hb hd).trans_le (Nat.pow_le_pow_left hb' _))

/-- A payload has at most k digits a byte in a base whose k-th power is 256 or more. -/
theorem length_digitsOf_beValue_le {b k : Nat} {payload : List Nat} (hb : 2 ≤ b) (hk : 256 ≤ b ^ k)
    (hp : ∀ v ∈ payload, v < 256) : (digitsOf b (beValue payload)).length ≤ k * payload.length := by
  refine length_digitsOf_le hb ((valueOf_lt (by decide) hp).trans_le ?_)
  rw [pow_mul]
  exact Nat.pow_le_pow_left hk _

/-- No fill answers more than four elements for each of its input's. -/
theorem commandFill_length_le {c : Config} {i : Instr} {x elems : List Nat} (hx : ∀ v ∈ x, v < 256 ^ i.eIn)
    (h : commandFill c i x = .ok elems) : elems.length ≤ 4 * x.length := by
  cases i with
  | p58Enc m =>
    cases h
    have hlead := lead_le x 0
    have hdigits := length_digitsOf_beValue_le (b := 58) (k := 2) (by decide) (by decide) hx
    simp only [List.length_append, List.length_replicate, List.length_map]
    omega
  | p58Dec m =>
    obtain ⟨ds, hds, rfl⟩ := map_ok h
    obtain ⟨rfl, hlt⟩ := digitValues_ok hds
    have hbytes (k : Nat) := length_minBeBytes_le (b := 58) (ds := ds.drop k) (by decide) (by decide)
      fun d hd => by simpa using hlt d (List.mem_of_mem_drop hd)
    rw [List.length_append, List.length_replicate]
    refine (Nat.add_le_add (lead_le _ _) (hbytes _)).trans ?_
    rw [List.length_map, List.length_drop]
    omega
  | p6Enc m =>
    cases h
    simpa only [List.length_map] using length_digitsOf_beValue_le (b := 6) (k := 4) (by decide) (by decide) hx
  | p6Dec m =>
    obtain ⟨ds, hds, rfl⟩ := map_ok h
    obtain ⟨rfl, hlt⟩ := digitValues_ok hds
    have hbytes := length_minBeBytes_le (b := 6) (by decide) (by decide) fun d hd => by simpa using hlt d hd
    rw [List.length_map]
    omega
  | b64Enc m =>
    cases h
    rw [length_encodeBlocks, ceilDiv]
    omega
  | b64Dec m =>
    obtain ⟨ds, hlen, rfl⟩ := fillB64Dec_ok h
    rw [length_decodeGroups]
    omega
  | pack8To32 m =>
    cases h
    rw [length_packLanes (.inl rfl), ceilDiv]
    omega
  | unpack32To8 m =>
    cases h
    have hlanes := length_unpackLanes_le 8 x
    omega
  | pack16To32 m =>
    cases h
    rw [length_packLanes (.inr rfl), ceilDiv]
    omega
  | unpack32To16 m =>
    cases h
    have hlanes := length_unpackLanes_le 16 x
    omega

/-- Every element a fill answers has the size of its output elements. -/
theorem commandFill_lt {c : Config} {i : Instr} {x elems : List Nat} (hx : ∀ v ∈ x, v < 256 ^ i.eIn)
    (h : commandFill c i x = .ok elems) : ∀ v ∈ elems, v < 256 ^ i.eOut := by
  cases i with
  | p58Enc m =>
    cases h
    intro v hv
    obtain hv | hv := List.mem_append.1 hv
    · rw [List.eq_of_mem_replicate hv]; exact charOf_lt _ _
    · exact map_charOf_lt _ _ v hv
  | p58Dec m =>
    obtain ⟨ds, -, rfl⟩ := map_ok h
    intro v hv
    obtain hv | hv := List.mem_append.1 hv
    · rw [List.eq_of_mem_replicate hv]; exact Nat.pow_pos (by decide)
    · exact minBeBytes_lt hv
  | p6Enc m =>
    cases h
    exact map_charOf_lt _ _
  | p6Dec m =>
    obtain ⟨ds, -, rfl⟩ := map_ok h
    exact fun v hv => minBeBytes_lt hv
  | b64Enc m =>
    cases h
    intro v hv
    obtain ⟨g, -, hv⟩ := List.mem_flatMap.1 hv
    exact encodeBlock_lt v hv
  | b64Dec m =>
    obtain ⟨ds, -, rfl⟩ := fillB64Dec_ok h
    intro v hv
    obtain ⟨g, -, hv⟩ := List.mem_flatMap.1 hv
    exact decodeGroup_lt v hv
  | pack8To32 m => cases h; exact packLanes_lt (.inl rfl) hx
  | unpack32To8 m => cases h; exact unpackLanes_lt 8 x
  | pack16To32 m => cases h; exact packLanes_lt (.inr rfl) hx
  | unpack32To16 m => cases h; exact unpackLanes_lt 16 x

/-! ### The query and the fill of one operation (spec/40_command.md R73, R81, R82) -/

/-- The query function answers the length of what the fill function answers, or the same error; but B64.DEC's query does not
look at the symbols (spec/42_base64.md R102). -/
theorem commandQuery_cases (c : Config) (i : Instr) (x : List Nat) :
    commandQuery c i x = (commandFill c i x).map List.length ∨
    ((∃ m, i = .b64Dec m) ∧ ∃ k, commandFill c i x = .err .invalidSymbol k) := by
  cases i with
  | p58Enc m => left; simp [commandQuery, commandFill, queryP58Enc, fillP58Enc, Answer.map]
  | p58Dec m =>
    left
    simp only [commandQuery, commandFill, queryP58Dec, fillP58Dec]
    cases digitValues c.alpha58.toList 0 x <;> simp [Answer.map]
  | p6Enc m => left; simp [commandQuery, commandFill, queryP6Enc, fillP6Enc, Answer.map]
  | p6Dec m =>
    left
    simp only [commandQuery, commandFill, queryP6Dec, fillP6Dec]
    cases digitValues c.alpha6.toList 0 x <;> rfl
  | b64Enc m => left; simp only [commandQuery, commandFill, queryB64Enc, fillB64Enc, Answer.map, length_encodeBlocks]
  | b64Dec m =>
    simp only [commandQuery, commandFill, queryB64Dec, fillB64Dec]
    by_cases hlen : x.length % 4 ≠ 0
    · left; rw [if_pos hlen, if_pos hlen]; rfl
    · rw [if_neg hlen, if_neg hlen]
      cases hds : digitValues c.alpha64.toList 0 (x.take (x.length - padCount c.pad64 x)) with
      | err code k =>
        obtain ⟨rfl, -, -⟩ := digitValues_err_code hds
        exact .inr ⟨⟨m, rfl⟩, k, rfl⟩
      | ok ds =>
        have hpad := padCount_le c.pad64 x
        have hlen' := length_of_digitValues_ok hds
        rw [List.length_take] at hlen'
        left
        simp only [Answer.map, length_decodeGroups, Answer.ok.injEq]
        omega
  | pack8To32 m => left; simp only [commandQuery, commandFill, Answer.map, length_packLanes (.inl rfl)]
  | unpack32To8 m => left; simp only [commandQuery, commandFill, Answer.map, length_unpackLanes]
  | pack16To32 m => left; simp only [commandQuery, commandFill, Answer.map, length_packLanes (.inr rfl)]
  | unpack32To16 m => left; simp only [commandQuery, commandFill, Answer.map, length_unpackLanes]

theorem commandQuery_of_fill {c : Config} {i : Instr} {x elems : List Nat} (h : commandFill c i x = .ok elems) :
    commandQuery c i x = .ok elems.length := by
  obtain hq | ⟨-, k, herr⟩ := commandQuery_cases c i x
  · rw [hq, h]; rfl
  · rw [h] at herr; cases herr

/-- Where the query answers a length the fill answers a sequence of that length, or it is B64.DEC's and finds a byte outside the
alphabet. -/
theorem commandFill_of_query {c : Config} {i : Instr} {x : List Nat} {len : Nat} (h : commandQuery c i x = .ok len) :
    (∃ elems, commandFill c i x = .ok elems ∧ elems.length = len) ∨
    ((∃ m, i = .b64Dec m) ∧ ∃ k, commandFill c i x = .err .invalidSymbol k) := by
  obtain hq | hbad := commandQuery_cases c i x
  · exact .inl (map_ok (hq.symm.trans h))
  · exact .inr hbad

theorem queryB64Dec_le {pad : Byte} {x : List Nat} {len : Nat} (h : queryB64Dec pad x = .ok len) : len ≤ 4 * x.length := by
  unfold queryB64Dec at h
  split at h <;> cases h
  omega

/-- No query answers more than four elements for each of its input's. -/
theorem commandQuery_le {c : Config} {i : Instr} {x : List Nat} {len : Nat} (hx : ∀ v ∈ x, v < 256 ^ i.eIn)
    (h : commandQuery c i x = .ok len) : len ≤ 4 * x.length := by
  obtain ⟨elems, hfill, rfl⟩ | ⟨⟨m, rfl⟩, -⟩ := commandFill_of_query h
  · exact commandFill_length_le hx hfill
  · exact queryB64Dec_le h

/-- Settles O54: four elements out for each one in, and at most 65536 in. -/
theorem infoFitsResult : Obligations.InfoFitsResult := by
  intro c i x hwf hx hin
  obtain ⟨⟨-, -, hsize⟩, -⟩ := hwf
  have hlen : x.length ≤ 65536 := (Nat.le_mul_of_pos_right _ (eIn_pos i)).trans (hin.trans hsize)
  refine ⟨fun len h => ?_, fun elems h => ⟨?_, commandFill_lt hx h⟩⟩
  · have := commandQuery_le hx h
    omega
  · have := commandFill_length_le hx h
    omega

end Sys2Proof.Machine

namespace Sys2Proof

/-- The command of the same row of the opcode map (spec/30_encoding.md R63) in the given mode. -/
def Instr.inMode (m : Mode) : Instr → Instr
  | .p58Enc _ => .p58Enc m
  | .p58Dec _ => .p58Dec m
  | .p6Enc _ => .p6Enc m
  | .p6Dec _ => .p6Dec m
  | .b64Enc _ => .b64Enc m
  | .b64Dec _ => .b64Dec m
  | .pack8To32 _ => .pack8To32 m
  | .unpack32To8 _ => .unpack32To8 m
  | .pack16To32 _ => .pack16To32 m
  | .unpack32To16 _ => .unpack32To16 m

@[simp] theorem Instr.inMode_eIn (m : Mode) (i : Instr) : (i.inMode m).eIn = i.eIn := by cases i <;> rfl

theorem Instr.commandOf_inMode (m : Mode) (i : Instr) : commandOf i.unit i.dir m = some (i.inMode m) := by
  cases i <;> rfl

end Sys2Proof

namespace Sys2Proof.Machine

/-- UNIT and DIR choose the operation, so the query and the fill of one differ in the mode alone. -/
theorem eq_inMode_of_twoPhases {q f : Instr} (h : twoPhases q f) : q = f.inMode .query := by
  obtain ⟨hunit, hdir, hq, -⟩ := h
  have hrow : commandOf f.unit f.dir .query = some q := commandOf_eq_some_iff.2 ⟨hunit, hdir, hq⟩
  exact Option.some.inj (hrow.symm.trans (f.commandOf_inMode .query))

theorem commandQuery_inMode (c : Config) (m : Mode) (i : Instr) : commandQuery c (i.inMode m) = commandQuery c i := by
  cases i <;> rfl

/-- Settles O29: the mode is no argument of the query function, and of one command it answers the fill's length. -/
theorem queryAnswersFillLength : Obligations.QueryAnswersFillLength := by
  intro c q f x elems h hfill
  rw [eq_inMode_of_twoPhases h, commandQuery_inMode]
  exact commandQuery_of_fill hfill

/-- A query that ends OK has read its input and ends with the length its query function answers. -/
theorem exec_query_ok {q : Instr} {s u : State} (hm : q.mode = .query) (h : exec q s = .next u) (hok : u.code = .ok) :
    ∃ x len, s.latInLen.toNat * q.eIn ≤ s.cfg.inSize ∧ inElems s.inBuf q.eIn s.latInLen.toNat = some x ∧
      commandQuery s.cfg q x = .ok len ∧ u.result = BitVec.ofNat 32 len := by
  obtain ⟨-, he⟩ | ⟨hr, ⟨-, he⟩ | ⟨x, hx, ⟨-, he⟩ | ⟨hm', -⟩⟩⟩ := exec_forms q s
  · rw [he] at h; cases h; simp at hok
  · rw [he] at h; cases h
  · rw [he] at h; cases h
    cases hq : commandQuery s.cfg q x with
    | ok len => exact ⟨x, len, hr, hx, hq, by simp [completeQuery]⟩
    | err code info => obtain rfl | ⟨rfl, -⟩ := commandQuery_err hq <;> simp [hq, completeQuery] at hok
  · simp [hm] at hm'

/-- A fill that ends OK or OUTPUT_TOO_SMALL has read its input, and its fill function answers a sequence. -/
theorem exec_fill_answered {f : Instr} {s t : State} (hm : f.mode = .fill) (h : exec f s = .next t)
    (hc : t.code = .ok ∨ t.code = .outputTooSmall) :
    ∃ x elems, s.latInLen.toNat * f.eIn ≤ s.cfg.inSize ∧ inElems s.inBuf f.eIn s.latInLen.toNat = some x ∧
      commandFill s.cfg f x = .ok elems ∧ t = settle f (completeFill f.eOut (.ok elems) s) := by
  obtain ⟨-, he⟩ | ⟨hr, ⟨-, he⟩ | ⟨x, hx, ⟨hm', -⟩ | ⟨-, he⟩⟩⟩ := exec_forms f s
  · rw [he] at h; cases h; simp at hc
  · rw [he] at h; cases h
  · simp [hm] at hm'
  · rw [he] at h; cases h
    cases hf : commandFill s.cfg f x with
    | ok elems => exact ⟨x, elems, hr, hx, hf, rfl⟩
    | err code info => obtain rfl | ⟨rfl, -⟩ := commandFill_err hf <;> simp [hf, completeFill] at hc

section
variable (eOut : Nat) (elems : List Nat) (s : State)

@[simp] theorem completeFill_ok_result : (completeFill eOut (.ok elems) s).result = BitVec.ofNat 32 elems.length := by
  rw [completeFill]; split <;> rfl

theorem completeFill_ok_code :
    (completeFill eOut (.ok elems) s).code = if elems.length > capacity eOut s then .outputTooSmall else .ok := by
  rw [completeFill]; split <;> rfl

end

/-- Settles O30: both modes compute over the same elements, and their functions answer one length. -/
theorem queryThenFill : Obligations.QueryThenFill := by
  intro q f s h
  have ⟨_, _, hmq, hmf⟩ := h
  obtain rfl := eq_inMode_of_twoPhases h
  refine ⟨fun t ht hc => ?_, fun u hu hok => ?_⟩
  · obtain ⟨x, elems, hr, hx, hfill, rfl⟩ := exec_fill_answered hmf ht hc
    rw [← f.inMode_eIn .query] at hr hx
    have hquery := commandQuery_of_fill hfill
    refine ⟨_, exec_query hmq hr hx, ?_⟩
    simp [commandQuery_inMode, hquery, completeQuery]
  · obtain ⟨x, len, hr, hx, hquery, hres⟩ := exec_query_ok hmq hu hok
    rw [f.inMode_eIn] at hr hx
    rw [commandQuery_inMode] at hquery
    refine ⟨_, exec_fill hmf hr hx, ?_⟩
    obtain ⟨elems, hfill, rfl⟩ | ⟨⟨m, rfl⟩, k, herr⟩ := commandFill_of_query hquery
    · right
      have hfits (hwf : s.cfg.Wf) : u.result.toNat = elems.length := by
        have hlen := length_inElems hx
        obtain ⟨hlt, -⟩ := infoFitsResult s.cfg f x hwf (inElems_lt hx) (hlen ▸ hr)
        rw [hres, BitVec.toNat_ofNat, Nat.mod_eq_of_lt (hlt _ hquery)]
      rw [hfill, settle_code, settle_result, completeFill_ok_code, completeFill_ok_result, hres]
      refine ⟨rfl, ?_, fun hwf hle => ?_, fun hwf hgt => ?_⟩
      · split
        · exact .inr rfl
        · exact .inl rfl
      · rw [← hres, hfits hwf] at hle
        exact if_neg (Nat.not_lt.2 hle)
      · rw [← hres, hfits hwf] at hgt
        exact if_pos hgt
    · obtain rfl : m = .fill := hmf
      exact .inl ⟨rfl, by rw [herr]; rfl⟩

/-! ### What an outcome depends on (spec/40_command.md R84) -/

section
variable {i : Instr} {s s' : State}

theorem capacity_congr (e : Nat) (hcfg : s.cfg = s'.cfg) (hcap : s.latOutCap = s'.latOutCap) :
    capacity e s = capacity e s' := by
  rw [capacity, capacity, hcfg, hcap]

/-- `exec_cases` in two states that a command cannot tell apart: it goes the same way in both, with the same values. -/
theorem exec_cases_congr {t : State} (hcfg : s.cfg = s'.cfg) (hlen : s.latInLen = s'.latInLen)
    (hcap : s.latOutCap = s'.latOutCap) (hin : ∀ a < s.latInLen.toNat * i.eIn, s.inBuf.read? a = s'.inBuf.read? a)
    (h : exec i s = .next t) :
    (∃ code info, t = settle i (finish code info s) ∧ exec i s' = .next (settle i (finish code info s')) ∧
      (code = .ok → i.mode = .query)) ∨
    (∃ elems, elems.length ≤ capacity i.eOut s ∧
      t = settle i (finish .ok elems.length { s with outBuf := outElems s.outBuf i.eOut elems }) ∧
      exec i s' = .next (settle i (finish .ok elems.length { s' with outBuf := outElems s'.outBuf i.eOut elems }))) := by
  have hx' := inElems_congr i.eIn _ hin
  obtain ⟨hr, he⟩ | ⟨hr, ⟨-, he⟩ | ⟨x, hx, ⟨hm, he⟩ | ⟨hm, he⟩⟩⟩ := exec_forms i s <;> rw [he] at h <;> cases h <;>
    rw [hcfg, hlen] at hr
  · exact .inl ⟨_, _, by rw [hlen], exec_out_of_range hr, nofun⟩
  · rw [hx', hlen] at hx
    have he' := exec_query hm hr hx
    rw [← hcfg] at he'
    rw [he']
    cases commandQuery s.cfg i x with
    | ok len => exact .inl ⟨_, _, rfl, rfl, fun _ => hm⟩
    | err code info => exact .inl ⟨_, _, rfl, rfl, fun _ => hm⟩
  · rw [hx', hlen] at hx
    have he' := exec_fill hm hr hx
    rw [← hcfg] at he'
    rw [he']
    cases hf : commandFill s.cfg i x with
    | ok elems =>
      simp only [completeFill, ← capacity_congr i.eOut hcfg hcap]
      split
      · exact .inl ⟨_, _, rfl, rfl, nofun⟩
      · exact .inr ⟨elems, by omega, rfl, rfl⟩
    | err code info =>
      refine .inl ⟨_, _, rfl, rfl, ?_⟩
      obtain rfl | ⟨rfl, -⟩ := commandFill_err hf <;> exact nofun

/-- A fault is an unwritten input byte, which both states have. -/
theorem exec_fault_congr {r : Fault} (hcfg : s.cfg = s'.cfg) (hlen : s.latInLen = s'.latInLen)
    (hin : ∀ a < s.latInLen.toNat * i.eIn, s.inBuf.read? a = s'.inBuf.read? a) (h : exec i s = .fault r) :
    exec i s' = .fault r := by
  have hx' := inElems_congr i.eIn _ hin
  obtain ⟨-, he⟩ | ⟨hr, ⟨hx, he⟩ | ⟨x, -, ⟨-, he⟩ | ⟨-, he⟩⟩⟩ := exec_forms i s <;> rw [he] at h <;> cases h
  rw [hcfg, hlen] at hr
  rw [hx', hlen] at hx
  exact exec_unwritten hr hx

end

/-- Settles O31: the command goes the same way in both states, and a fill stores the same elements. -/
theorem outcomeDependsOnInputOnly : Obligations.OutcomeDependsOnInputOnly := by
  intro i s s' hcfg hlen hcap hin
  refine ⟨fun t h => ?_, fun r h => exec_fault_congr hcfg hlen hin h⟩
  obtain ⟨code, info, rfl, h', hquery⟩ | ⟨elems, hle, rfl, h'⟩ := exec_cases_congr hcfg hlen hcap hin h
  · refine ⟨_, h', by simp, by simp, fun hm hok => ?_, fun hout a => ?_⟩
    · rw [settle_code, finish_code] at hok
      simp [hquery hok] at hm
    · simp only [settle_outBuf, finish_outBuf, hout a]
  · refine ⟨_, h', by simp, by simp, fun _ _ a ha => ?_, fun hout a => ?_⟩ <;>
      simp only [settle_outBuf, finish_outBuf, read_outElems _ _ _ _ (eOut_pos i)]
    · rw [settle_result, finish_result, toNat_result_of_le_capacity hle] at ha
      rw [if_pos ha, if_pos ha]
    · rw [hout a]

end Sys2Proof.Machine

/-! ### The positional codec (spec/41_positional.md R88 to R99) -/

namespace Sys2Proof.Machine

/-! #### Commands from bytes to bytes -/

theorem elementsOf_inputIs_one {s : State} {input : List Byte} (hin : InputIs s 1 input) :
    elementsOf 1 s.latInLen.toNat input = input.map BitVec.toNat := by
  obtain ⟨hlen, -⟩ := hin
  exact elementsOf_one _ _ (by rwa [Nat.mul_one] at hlen)

/-- Where a command takes and gives bytes, what its fill function answers decides both modes (spec/40_command.md R79, R81). -/
theorem completesWith_of_fill {cmd : Mode → Instr} {s : State} {input out : List Byte} (hin : InputIs s 1 input)
    (hrow : ∀ m, cmd m = (cmd .fill).inMode m) (hm : ∀ m, (cmd m).mode = m) (heIn : (cmd .fill).eIn = 1)
    (heOut : (cmd .fill).eOut = 1)
    (hfill : commandFill s.cfg (cmd .fill) (input.map BitVec.toNat) = .ok (out.map BitVec.toNat)) :
    CompletesWith cmd s out.length out := by
  have helems := elementsOf_inputIs_one hin
  have hquery : commandQuery s.cfg (cmd .query) (input.map BitVec.toNat) = .ok out.length := by
    rw [hrow .query, commandQuery_inMode, commandQuery_of_fill hfill, List.length_map]
  refine completesWith_of hin hm (fun m => by rw [hrow m, Instr.inMode_eIn, heIn]) (helems ▸ hquery) (helems ▸ hfill)
    (List.length_map _) (by rw [heOut, Nat.mul_one]) fun a ha => ?_
  simp [heOut, byteAt, ha, Nat.mod_one]

/-- The validation loop over bytes answers the lowest index that holds no symbol (spec/41_positional.md R90). -/
theorem digitValues_first_bad {alphabet text : List Byte} {j : Nat} (hj : j < text.length) (hbad : text[j] ∉ alphabet)
    (hgood : ∀ k (_ : k < j), text[k] ∈ alphabet) :
    digitValues alphabet 0 (text.map BitVec.toNat) = .err .invalidSymbol j := by
  have h := digitValues_err (alphabet := alphabet) (text := text.map BitVec.toNat) (j := j) (by simpa using hj)
    (fun a ha he => hbad (BitVec.eq_of_toNat_eq (he.trans (List.getElem_map _)) ▸ ha))
    (fun k hk => ⟨text[k], hgood k hk, by simp⟩) 0
  rwa [Nat.zero_add] at h

/-- Settles O37: the validation loop comes before the capacity, and B64.DEC runs it over what stands before the padding. -/
theorem firstBadSymbolReported : Obligations.FirstBadSymbolReported := by
  intro s text j hj hin
  have helems := elementsOf_inputIs_one hin
  refine ⟨fun hbad hgood m => ?_, fun hbad hgood m => ?_, fun hbad hgood hlen hpad => ?_⟩
  · have hdigits := digitValues_first_bad hj hbad hgood
    exact failsWith_of hin rfl (fun _ => by rw [helems, commandQuery, queryP58Dec, hdigits]; rfl)
      (fun _ => by rw [helems, commandFill, fillP58Dec, hdigits]; rfl)
  · have hdigits := digitValues_first_bad hj hbad hgood
    exact failsWith_of hin rfl (fun _ => by rw [helems, commandQuery, queryP6Dec, hdigits]; rfl)
      (fun _ => by rw [helems, commandFill, fillP6Dec, hdigits]; rfl)
  · have hdigits := digitValues_first_bad (alphabet := s.cfg.alpha64.toList) (j := j)
      (text := text.take (text.length - padCount s.cfg.pad64 (text.map BitVec.toNat)))
      (by rw [List.length_take]; omega) (by simpa using hbad) (fun k hk => by simpa using hgood k hk)
    rw [List.map_take] at hdigits
    refine failsWith_of hin rfl nofun fun _ => ?_
    rw [helems, commandFill, fillB64Dec, List.length_map, if_neg (by simpa using hlen), hdigits]
    rfl

/-! #### Digits, values and leading runs -/

theorem head_digitsOf_ne_zero {b : Nat} (hb : 2 ≤ b) (n : Nat) : (digitsOf b n).head? ≠ some 0 := by
  rw [digitsOf_eq hb, List.head?_reverse]
  intro h
  obtain ⟨hne, hlast⟩ := List.mem_getLast?_eq_getLast h
  exact Nat.getLast_digit_ne_zero b (Nat.digits_ne_nil_iff_ne_zero.1 hne) hlast.symm

theorem length_digitsOf {b : Nat} (hb : 2 ≤ b) (n : Nat) :
    (digitsOf b n).length = if n = 0 then 0 else Nat.log b n + 1 := by
  rw [digitsOf_eq hb, List.length_reverse]
  split_ifs with hn
  · rw [hn, Nat.digits_zero]; rfl
  · exact Nat.length_digits b n hb hn

theorem replicate_lead_append_drop (s : List Nat) (x : Nat) :
    List.replicate (lead s x) x ++ s.drop (lead s x) = s := by
  rw [← take_lead, List.take_append_drop]

theorem drop_lead (s : List Nat) (x : Nat) : s.drop (lead s x) = s.dropWhile (· == x) :=
  (congrArg (List.drop _) List.takeWhile_append_dropWhile.symm).trans List.drop_left

/-- The zeros at the front do not count. -/
theorem valueOf_drop_lead (b : Nat) (ds : List Nat) : valueOf b (ds.drop (lead ds 0)) = valueOf b ds := by
  rw [← valueOf_replicate_zero b (lead ds 0), replicate_lead_append_drop]

theorem valueOf_append (b : Nat) (xs ys : List Nat) :
    valueOf b (xs ++ ys) = valueOf b xs * b ^ ys.length + valueOf b ys := by
  simp only [valueOf_eq, List.reverse_append, Nat.ofDigits_append, List.length_reverse]
  ring

/-- The minimal bytes of a payload's value are the payload without the zero bytes at its front. -/
theorem minBeBytes_beValue {p : List Nat} (hp : ∀ v ∈ p, v < 256) : minBeBytes (beValue p) = p.drop (lead p 0) := by
  rw [minBeBytes, beValue, ← valueOf_drop_lead]
  exact digitsOf_valueOf (by decide) (fun d hd => hp d (List.mem_of_mem_drop hd)) (head_drop_lead p 0)

theorem beValue_map_toNat (p : List Byte) :
    beValue (p.map BitVec.toNat) = Nat.ofDigits 256 (p.reverse.map BitVec.toNat) := by
  rw [beValue, valueOf_eq, List.map_reverse]

theorem lead_map_toNat (p : List Byte) : lead (p.map BitVec.toNat) 0 = (p.takeWhile (· = 0#8)).length := by
  rw [lead, List.takeWhile_map, List.length_map]
  congr 2
  funext v
  rw [Bool.eq_iff_iff]
  simp [← BitVec.toNat_inj]

/-! #### Texts over an alphabet -/

theorem textOf_map_toNat (alphabet : List Byte) (ds : List Nat) :
    (textOf alphabet ds).map BitVec.toNat = ds.map (charOf alphabet) := List.map_map

theorem bytesOf_minBeBytes_map_toNat (n : Nat) : (bytesOf (minBeBytes n)).map BitVec.toNat = minBeBytes n := by
  rw [bytesOf, List.map_map]
  exact (List.map_congr_left fun v hv => Nat.mod_eq_of_lt (minBeBytes_lt hv)).trans (List.map_id _)

theorem charOf_inj {alphabet : List Byte} (hn : alphabet.Nodup) {d e : Nat} (hd : d < alphabet.length)
    (he : e < alphabet.length) : charOf alphabet d = charOf alphabet e ↔ d = e := by
  refine ⟨fun h => ?_, fun h => by rw [h]⟩
  have hdigit := digitOf_charOf hn hd
  rw [h, digitOf_charOf hn he] at hdigit
  exact (Option.some.inj hdigit).symm

/-- The run of zero-symbols at the front of a text is the run of zero digits. -/
theorem lead_map_charOf {alphabet : List Byte} (hn : alphabet.Nodup) {ds : List Nat}
    (hd : ∀ d ∈ ds, d < alphabet.length) : lead (ds.map (charOf alphabet)) (charOf alphabet 0) = lead ds 0 := by
  induction ds with
  | nil => rfl
  | cons d ds ih =>
    have hlt := hd d List.mem_cons_self
    have hrest := ih fun e he => hd e (List.mem_cons_of_mem d he)
    obtain rfl | h := eq_or_ne d 0
    · simpa [lead] using hrest
    · have hne := mt (charOf_inj hn hlt (Nat.zero_lt_of_lt hlt)).1 h
      simp [lead, h, hne]

/-! #### The fill functions over payloads and texts (spec/41_positional.md R89 to R92) -/

/-- An encoding is a text: a digit 0 for each zero byte at the front, then the digits of the value. -/
theorem fillP58Enc_eq (alphabet : List Byte) (p : List Nat) :
    fillP58Enc alphabet p =
      .ok ((List.replicate (lead p 0) 0 ++ digitsOf 58 (beValue p)).map (charOf alphabet)) := by
  rw [fillP58Enc, List.map_append, List.map_replicate]

section
variable {alphabet : List Byte} {ds : List Nat}

theorem fillP58Dec_text (hn : alphabet.Nodup) (hd : ∀ d ∈ ds, d < alphabet.length) :
    fillP58Dec alphabet (ds.map (charOf alphabet)) =
      .ok (List.replicate (lead ds 0) 0 ++ minBeBytes (valueOf 58 ds)) := by
  rw [fillP58Dec, digitValues_map hn hd, lead_map_charOf hn hd, Answer.map, valueOf_drop_lead]

theorem fillP6Dec_text (hn : alphabet.Nodup) (hd : ∀ d ∈ ds, d < alphabet.length) :
    fillP6Dec alphabet (ds.map (charOf alphabet)) = .ok (minBeBytes (valueOf 6 ds)) := by
  rw [fillP6Dec, digitValues_map hn hd, Answer.map]

end

/-- What P58.DEC answers is a zero byte a zero-symbol, and at most a byte for each symbol after them. -/
theorem length_fillP58Dec_le {alphabet : List Byte} (ha : alphabet.length = 58) {text out : List Nat}
    (h : fillP58Dec alphabet text = .ok out) : out.length ≤ text.length := by
  obtain ⟨ds, hds, rfl⟩ := map_ok h
  have hlt := (digitValues_ok hds).2
  rw [ha] at hlt
  have hbytes := length_minBeBytes_le (b := 58) (ds := ds.drop (lead text (charOf alphabet 0))) (by decide) (by decide)
    fun d hd => hlt d (List.mem_of_mem_drop hd)
  have hlead := lead_le text (charOf alphabet 0)
  rw [List.length_drop, length_of_digitValues_ok hds] at hbytes
  rw [List.length_append, List.length_replicate]
  omega

theorem length_fillP6Dec_le {alphabet : List Byte} (ha : alphabet.length = 6) {text out : List Nat}
    (h : fillP6Dec alphabet text = .ok out) : out.length ≤ text.length := by
  obtain ⟨ds, hds, rfl⟩ := map_ok h
  have hlt := (digitValues_ok hds).2
  rw [ha] at hlt
  exact (length_minBeBytes_le (by decide) (by decide) hlt).trans_eq (length_of_digitValues_ok hds)

/-! #### The commands -/

/-- Settles O33: the fill function over the payload's bytes, with `Nat.digits` for its digits. -/
theorem p58EncodesPayload : Obligations.P58EncodesPayload := by
  intro s p hin
  refine completesWith_of_fill hin (fun _ => rfl) (fun _ => rfl) rfl rfl ?_
  rw [commandFill, fillP58Enc, lead_map_toNat, beValue_map_toNat, digitsOf_eq (by decide), List.map_append,
    List.map_replicate, textOf_map_toNat]
  rfl

/-- Settles O34: the text's digits come back, and its run of zero-symbols is their run of zeros. -/
theorem p58DecodesText : Obligations.P58DecodesText := by
  intro s ds hok hd hin
  obtain ⟨hn, -⟩ := hok
  refine completesWith_of_fill hin (fun _ => rfl) (fun _ => rfl) rfl rfl ?_
  rw [textOf_map_toNat, commandFill, fillP58Dec_text hn (by simpa using hd), List.map_append, List.map_replicate,
    ← valueOf_eq, ← digitsOf_eq (by decide), ← minBeBytes, bytesOf_minBeBytes_map_toNat]
  rfl

/-- Settles O35: as for base 58, without the run at the front. -/
theorem p6EncodesPayload : Obligations.P6EncodesPayload := by
  intro s p hin
  refine completesWith_of_fill hin (fun _ => rfl) (fun _ => rfl) rfl rfl ?_
  rw [commandFill, fillP6Enc, beValue_map_toNat, digitsOf_eq (by decide), textOf_map_toNat]

/-- Settles O36: as for base 58, without the run at the front. -/
theorem p6DecodesText : Obligations.P6DecodesText := by
  intro s ds hok hd hin
  obtain ⟨-, hn, -⟩ := hok
  refine completesWith_of_fill hin (fun _ => rfl) (fun _ => rfl) rfl rfl ?_
  rw [textOf_map_toNat, commandFill, fillP6Dec_text hn (by simpa using hd), ← valueOf_eq, ← digitsOf_eq (by decide),
    ← minBeBytes, bytesOf_minBeBytes_map_toNat]

/-! #### Round trips (spec/41_positional.md R96, R97) -/

/-- Settles O45: the digits of a value begin with no zero, so the decoder counts the payload's own run of zero bytes. -/
theorem roundTripBase58 : Obligations.RoundTripBase58 := by
  intro c p hok hp
  obtain ⟨hn, -⟩ := hok
  have hd : ∀ d ∈ List.replicate (lead p 0) 0 ++ digitsOf 58 (beValue p), d < c.alpha58.toList.length := by
    intro d hd
    rw [Vector.length_toList]
    obtain hd | hd := List.mem_append.1 hd
    · rw [List.eq_of_mem_replicate hd]; decide
    · exact digitsOf_lt (by decide) hd
  have hlead := lead_replicate (lead p 0) 0 (head_digitsOf_ne_zero (b := 58) (by decide) (beValue p))
  refine ⟨_, fillP58Enc_eq _ p, ?_, (lead_map_charOf hn hd).trans hlead, minBeBytes_beValue hp⟩
  rw [fillP58Dec_text hn hd, hlead, valueOf_replicate_zero, valueOf_digitsOf (by decide), minBeBytes_beValue hp,
    replicate_lead_append_drop]

/-- Settles O46: P6.DEC answers the minimal bytes of the payload's value. -/
theorem roundTripBase6 : Obligations.RoundTripBase6 := by
  intro c p hok hp
  obtain ⟨-, hn, -⟩ := hok
  have hdec : fillP6Dec c.alpha6.toList ((digitsOf 6 (beValue p)).map (charOf c.alpha6.toList)) =
      .ok (p.dropWhile (· == 0)) := by
    rw [fillP6Dec_text hn fun d hd => by rw [Vector.length_toList]; exact digitsOf_lt (by decide) hd,
      valueOf_digitsOf (by decide), minBeBytes_beValue hp, drop_lead]
  refine ⟨_, rfl, hdec, ?_⟩
  rw [hdec, Answer.ok.injEq, List.dropWhile_eq_self_iff]
  cases p <;> simp

/-! #### Lengths and bounds (spec/41_positional.md R94, R95) -/

/-- The place of the first digit is below what the payload's bytes can count. -/
theorem pow_length_digitsOf_lt {b : Nat} (hb : 2 ≤ b) {p : List Nat} (hp : ∀ v ∈ p, v < 256) :
    (digitsOf b (beValue p)).length = 0 ∨ b ^ ((digitsOf b (beValue p)).length - 1) < 256 ^ p.length := by
  rw [length_digitsOf hb]
  split_ifs with hn
  · exact .inl rfl
  · exact .inr ((Nat.pow_log_le_self b hn).trans_lt (valueOf_lt (by decide) hp))

/-- Settles O51: the logarithm's bounds for the encoders, and at most a byte a symbol for the decoders. -/
theorem positionalLengths : Obligations.PositionalLengths := by
  refine ⟨fun b n hb => length_digitsOf (by omega) n, fun c p hp => ⟨⟨_, rfl, by simp⟩, ⟨_, rfl, ?_⟩⟩,
    fun c text out h => ?_⟩
  · rw [List.length_map]
    exact ⟨rfl, pow_length_digitsOf_lt (by decide) hp⟩
  · obtain h | h := h
    · exact length_fillP58Dec_le Vector.length_toList h
    · exact length_fillP6Dec_le Vector.length_toList h

theorem valueOf_take_le {b : Nat} (hb : 0 < b) (ds : List Nat) (k : Nat) : valueOf b (ds.take k) ≤ valueOf b ds := by
  conv_rhs => rw [← List.take_append_drop k ds, valueOf_append]
  exact (Nat.le_mul_of_pos_right _ (Nat.pow_pos hb)).trans (Nat.le_add_right _ _)

/-- Settles O52: a base is at most 256, so a value has at most 8 bits a digit. -/
theorem accumulatorHoldsEveryValue : Obligations.AccumulatorHoldsEveryValue := by
  intro c b ds k hwf hb hd hlen
  obtain ⟨-, -, hacc, -⟩ := hwf
  refine ⟨valueOf_take_le (by omega) ds k, ?_⟩
  calc valueOf b ds < b ^ ds.length := valueOf_lt (by omega) hd
    _ ≤ 256 ^ ds.length := Nat.pow_le_pow_left (by omega) _
    _ = 2 ^ (8 * ds.length) := (pow_mul 2 8 _).symm
    _ ≤ 2 ^ c.accBits := Nat.pow_le_pow_right (by decide) (by omega)

/-! #### Empty and all-zero inputs (spec/41_positional.md R99) -/

theorem valueOf_zeros (b k : Nat) : valueOf b (List.replicate k 0) = 0 := by
  simpa [valueOf] using valueOf_replicate_zero b k []

theorem lead_zeros (k : Nat) : lead (List.replicate k 0) 0 = k := by
  simpa using lead_replicate k 0 (t := []) nofun

/-- Settles O53: k zeros have the value 0, which has no digits and no bytes. -/
theorem emptyAndAllZero : Obligations.EmptyAndAllZero := by
  intro c k hok
  obtain ⟨hn58, hn6, -⟩ := hok
  have hzero {n : Nat} (hpos : 0 < n) : ∀ d ∈ List.replicate k 0, d < n := fun d hd => List.eq_of_mem_replicate hd ▸ hpos
  have h58 := fillP58Dec_text hn58 (hzero (n := c.alpha58.toList.length) (by simp))
  have h6 := fillP6Dec_text hn6 (hzero (n := c.alpha6.toList.length) (by simp))
  rw [List.map_replicate, valueOf_zeros] at h58 h6
  refine ⟨?_, ?_, ?_, h6⟩
  · simp [fillP58Enc, beValue, valueOf_zeros, lead_zeros]
  · simp [fillP6Enc, beValue, valueOf_zeros]
  · simpa [lead_zeros, minBeBytes] using h58

end Sys2Proof.Machine

/-! ### The base-64 codec (spec/42_base64.md R100 to R104) -/

namespace Sys2Proof.Machine

/-! #### Sequences in groups -/

/-- A sequence is empty, or it is one short group, or it is a full group and then a sequence. -/
theorem chunks_induction {α : Type} {k : Nat} (hk : 0 < k) {P : List α → Prop} (nil : P [])
    (short : ∀ g, g ≠ [] → g.length < k → P g) (full : ∀ g xs, g.length = k → P xs → P (g ++ xs)) (xs : List α) : P xs := by
  induction hn : xs.length using Nat.strong_induction_on generalizing xs with
  | _ n ih =>
    by_cases hx : xs = []
    · rwa [hx]
    obtain hlt | hle := lt_or_ge xs.length k
    · exact short xs hx hlt
    · rw [← List.take_append_drop k xs]
      exact full _ _ (List.length_take_of_le hle) (ih (n - k) (by omega) _ (by rw [List.length_drop, hn]))

theorem chunks_append {α : Type} {k : Nat} (hk : 0 < k) {g : List α} (hg : g.length = k) (xs : List α) :
    chunks k (g ++ xs) = g :: chunks k xs := by
  have hne : g ++ xs ≠ [] := List.append_ne_nil_of_left_ne_nil (List.ne_nil_of_length_pos (by omega)) xs
  rw [chunks_cons hk hne, List.take_left' hg, List.drop_left' hg]

theorem chunks_of_length_le {α : Type} {k : Nat} (hk : 0 < k) {g : List α} (hne : g ≠ []) (hg : g.length ≤ k) :
    chunks k g = [g] := by
  rw [chunks_cons hk hne, List.take_of_length_le hg, List.drop_of_length_le hg, chunks_nil]

/-- Where a full group gives m elements and no group more, element j of what the groups give is its group's own. -/
theorem getElem?_flatMap_chunks {α β : Type} {k m : Nat} (hk : 0 < k) (hm : 0 < m) {f : List α → List β}
    (hfull : ∀ g, g.length = k → (f g).length = m) (hshort : ∀ g, g.length < k → (f g).length ≤ m) (xs : List α) (j : Nat)
    (hj : j < ((chunks k xs).flatMap f).length) :
    ((chunks k xs).flatMap f)[j]? = (f ((xs.drop (k * (j / m))).take k))[j % m]? := by
  induction xs using chunks_induction hk generalizing j with
  | nil => simp at hj
  | short g hne hlt =>
    rw [chunks_of_length_le hk hne hlt.le, List.flatMap_singleton] at hj ⊢
    have hjm : j < m := hj.trans_le (hshort g hlt)
    rw [Nat.div_eq_of_lt hjm, Nat.mod_eq_of_lt hjm, Nat.mul_zero, List.drop_zero, List.take_of_length_le hlt.le]
  | full g xs hg ih =>
    rw [chunks_append hk hg, List.flatMap_cons] at hj ⊢
    obtain hjm | hjm := lt_or_ge j m
    · rw [List.getElem?_append_left (by rwa [hfull g hg]), Nat.div_eq_of_lt hjm, Nat.mod_eq_of_lt hjm, Nat.mul_zero,
        List.drop_zero, List.take_left' hg]
    · rw [List.length_append, hfull g hg] at hj
      rw [List.getElem?_append_right (by rwa [hfull g hg]), hfull g hg, ih (j - m) (by omega), ← Nat.mod_eq_sub_mod hjm,
        Nat.div_eq_sub_div hm hjm, Nat.mul_succ, Nat.add_comm, ← List.drop_drop, List.drop_left' hg]

/-- An element of a group, 0 beyond its end, is the sequence's own. -/
theorem getD_take_drop {α : Type} (xs : List α) (a : α) {i k : Nat} (hi : i < k) (n : Nat) :
    ((xs.drop n).take k).getD i a = xs.getD (n + i) a := by
  rw [List.getD_eq_getElem?_getD, List.getElem?_take_of_lt hi, List.getElem?_drop, List.getD_eq_getElem?_getD]

theorem getD_map_toNat (p : List Byte) (k : Nat) : (p.map BitVec.toNat).getD k 0 = (p.getD k 0#8).toNat :=
  List.getD_map p 0#8 BitVec.toNat

/-! #### Padding at the end (spec/42_base64.md R102) -/

theorem padCount_append_replicate {pad : Byte} {text : List Nat} (h : pad.toNat ∉ text) {k : Nat} (hk : k ≤ 2) :
    padCount pad (text ++ List.replicate k pad.toNat) = k := by
  have hrev : pad.toNat ∉ text.reverse := by rwa [List.mem_reverse]
  rw [padCount, List.reverse_append, List.reverse_replicate]
  generalize text.reverse = r at hrev
  interval_cases k
  · match r with
    | [] => rfl
    | [a] => exact if_neg (List.ne_of_not_mem_cons hrev).symm
    | a :: b :: _ => exact if_neg (List.ne_of_not_mem_cons hrev).symm
  · match r with
    | [] => exact if_pos rfl
    | a :: _ => exact (if_pos rfl).trans (if_neg (List.ne_of_not_mem_cons hrev).symm)
  · exact (if_pos rfl).trans (if_pos rfl)

theorem padCount_map_toNat (pad : Byte) (text : List Byte) :
    padCount pad (text.map BitVec.toNat) =
      if text.getLast? = some pad then (if text.dropLast.getLast? = some pad then 2 else 1) else 0 := by
  obtain ⟨r, rfl⟩ : ∃ r : List Byte, text = r.reverse := ⟨_, text.reverse_reverse.symm⟩
  match r with
  | [] => rfl
  | [a] => simp [padCount, BitVec.toNat_inj]
  | a :: b :: _ => simp [padCount, BitVec.toNat_inj]

/-! #### Encoding (spec/42_base64.md R101) -/

/-- The symbol indices of one group of bytes, without its padding. -/
def blockIndices (blk : List Nat) : List Nat :=
  let v := groupOfBytes blk
  [bitField v 18 6, bitField v 12 6, bitField v 6 6, bitField v 0 6].take (blk.length + 1)

/-- The symbol indices of a payload, without its padding. -/
def payloadIndices (payload : List Nat) : List Nat := (chunks 3 payload).flatMap blockIndices

theorem encodeBlock_eq (alphabet : List Byte) (pad : Byte) (blk : List Nat) :
    encodeBlock alphabet pad blk =
      (blockIndices blk).map (charOf alphabet) ++ List.replicate (3 - blk.length) pad.toNat := by
  rw [encodeBlock, blockIndices, List.map_take]

theorem length_blockIndices (blk : List Nat) : (blockIndices blk).length = min (blk.length + 1) 4 := List.length_take

theorem blockIndices_lt {blk : List Nat} : ∀ d ∈ blockIndices blk, d < 64 := by
  intro d hd
  have hmem := List.mem_of_mem_take hd
  simp only [List.mem_cons, List.not_mem_nil, or_false] at hmem
  obtain rfl | rfl | rfl | rfl := hmem <;> exact Nat.mod_lt _ (by decide)

theorem payloadIndices_lt {p : List Nat} : ∀ d ∈ payloadIndices p, d < 64 := by
  intro d hd
  obtain ⟨g, -, hg⟩ := List.mem_flatMap.1 hd
  exact blockIndices_lt d hg

theorem payloadIndices_of_short {g : List Nat} (hne : g ≠ []) (hg : g.length < 3) : payloadIndices g = blockIndices g := by
  rw [payloadIndices, chunks_of_length_le (by decide) hne hg.le, List.flatMap_singleton]

theorem payloadIndices_append {g : List Nat} (hg : g.length = 3) (p : List Nat) :
    payloadIndices (g ++ p) = blockIndices g ++ payloadIndices p := by
  rw [payloadIndices, chunks_append (by decide) hg, List.flatMap_cons, payloadIndices]

/-- Only the last group pads, so an encoding is the symbols of its indices and then the padding. -/
theorem fillB64Enc_eq (alphabet : List Byte) (pad : Byte) (p : List Nat) :
    fillB64Enc alphabet pad p = .ok ((payloadIndices p).map (charOf alphabet) ++
      List.replicate ((3 - p.length % 3) % 3) pad.toNat) := by
  rw [fillB64Enc, Answer.ok.injEq]
  induction p using chunks_induction (k := 3) (by decide) with
  | nil => rfl
  | short g hne hlt =>
    have hpos := List.length_pos_of_ne_nil hne
    rw [chunks_of_length_le (by decide) hne hlt.le, List.flatMap_singleton, encodeBlock_eq, payloadIndices_of_short hne hlt,
      show (3 - g.length % 3) % 3 = 3 - g.length by omega]
  | full g p hg ih =>
    rw [chunks_append (by decide) hg, List.flatMap_cons, ih, encodeBlock_eq, payloadIndices_append hg, List.map_append,
      List.length_append, hg, Nat.sub_self, List.replicate_zero, List.append_nil, Nat.add_mod_left,
      List.append_assoc]

theorem length_payloadIndices_add_padding (p : List Nat) :
    (payloadIndices p).length + (3 - p.length % 3) % 3 = 4 * ((p.length + 2) / 3) := by
  have h := length_encodeBlocks [] 0#8 p
  rw [Answer.ok.inj (fillB64Enc_eq [] 0#8 p)] at h
  simpa [ceilDiv] using h

/-- A symbol of a group is a character where its place is at most the group's number of bytes. -/
theorem getElem?_encodeBlock (alphabet : List Byte) (pad : Byte) (blk : List Nat) {j : Nat} (hj : j < 4)
    (hlen : blk.length ≤ 3) :
    (encodeBlock alphabet pad blk)[j]? = some
      (if j ≤ blk.length then charOf alphabet (groupOfBytes blk / 64 ^ (3 - j) % 64) else pad.toNat) := by
  have hidx := length_blockIndices blk
  rw [encodeBlock_eq]
  split_ifs with hle
  · rw [List.getElem?_append_left (by rw [List.length_map]; omega), List.getElem?_map, blockIndices,
      List.getElem?_take_of_lt (by omega)]
    interval_cases j <;> rfl
  · rw [List.getElem?_append_right (by rw [List.length_map]; omega), List.length_map, List.getElem?_replicate_of_lt (by omega)]

/-- Symbol k is one of the four of group k div 4. -/
theorem getElem_encodeBlocks (alphabet : List Byte) (pad : Byte) (p : List Nat) {k : Nat}
    (hk : k < ((chunks 3 p).flatMap (encodeBlock alphabet pad)).length) :
    ((chunks 3 p).flatMap (encodeBlock alphabet pad))[k] =
      if k % 4 ≤ p.length - 3 * (k / 4) then
        charOf alphabet ((p.getD (3 * (k / 4)) 0 * 2 ^ 16 + p.getD (3 * (k / 4) + 1) 0 * 2 ^ 8 +
          p.getD (3 * (k / 4) + 2) 0) / 64 ^ (3 - k % 4) % 64)
      else pad.toNat := by
  have hlength (g : List Nat) (hg : g.length ≤ 3) : (encodeBlock alphabet pad g).length = 4 := by
    rw [encodeBlock_eq, List.length_append, List.length_map, length_blockIndices, List.length_replicate]
    omega
  have hk4 : k % 4 < 4 := Nat.mod_lt k (by decide)
  have hbytes : k % 4 ≤ min 3 (p.length - 3 * (k / 4)) ↔ k % 4 ≤ p.length - 3 * (k / 4) := by omega
  refine Option.some.inj ?_
  rw [← List.getElem?_eq_getElem hk, getElem?_flatMap_chunks (by decide) (by decide) (fun g hg => hlength g hg.le)
    (fun g hg => (hlength g hg.le).le) p k hk, getElem?_encodeBlock alphabet pad _ hk4 (List.length_take_le _ _)]
  simp only [List.length_take, List.length_drop, hbytes, groupOfBytes, getD_take_drop, Nat.reduceLT, Nat.add_zero]

/-! #### Decoding (spec/42_base64.md R102) -/

theorem charOf_mem {alphabet : List Byte} {d : Nat} (hd : d < alphabet.length) :
    BitVec.ofNat 8 (charOf alphabet d) ∈ alphabet := by
  rw [charOf, BitVec.ofNat_toNat, BitVec.setWidth_eq, List.getD_eq_getElem _ _ hd]
  exact List.getElem_mem hd

section
variable {alphabet : List Byte} {pad : Byte} {ds : List Nat}

/-- The padding byte is no symbol, so it stands in no text of symbols. -/
theorem pad_not_mem_text (hp : pad ∉ alphabet) (hd : ∀ d ∈ ds, d < alphabet.length) :
    pad.toNat ∉ ds.map (charOf alphabet) := by
  intro hmem
  obtain ⟨d, hds, he⟩ := List.mem_map.1 hmem
  have hsymbol := charOf_mem (hd d hds)
  rw [he, BitVec.ofNat_toNat, BitVec.setWidth_eq] at hsymbol
  exact hp hsymbol

/-- The decoder of a text of symbols and padding answers the groups of its indices. -/
theorem fillB64Dec_text (hn : alphabet.Nodup) (hp : pad ∉ alphabet) (hd : ∀ d ∈ ds, d < alphabet.length) {pads : Nat}
    (hpads : pads ≤ 2) (hlen : (ds.length + pads) % 4 = 0) :
    fillB64Dec alphabet pad (ds.map (charOf alphabet) ++ List.replicate pads pad.toNat) =
      .ok ((chunks 4 ds).flatMap decodeGroup) := by
  have htake : (ds.map (charOf alphabet) ++ List.replicate pads pad.toNat).length - pads =
      (ds.map (charOf alphabet)).length := by
    rw [List.length_append, List.length_replicate, Nat.add_sub_cancel]
  rw [fillB64Dec, if_neg (by simpa using hlen), padCount_append_replicate (pad_not_mem_text hp hd) hpads, htake,
    List.take_left, digitValues_map hn hd, Answer.map]

end

theorem length_decodeGroup (grp : List Nat) : (decodeGroup grp).length = min (grp.length - 1) 3 := List.length_take

theorem getElem_decodeGroup (grp : List Nat) {j : Nat} (hj : j < (decodeGroup grp).length) :
    (decodeGroup grp)[j] = groupOfIndices grp / 256 ^ (2 - j) % 256 := by
  have hj3 : j < 3 := by rw [length_decodeGroup] at hj; omega
  simp only [decodeGroup, List.getElem_take]
  interval_cases j <;> rfl

/-- Byte k is one of the three of group k div 3. -/
theorem getElem_decodeGroups (c : List Nat) {k : Nat} (hk : k < ((chunks 4 c).flatMap decodeGroup).length) :
    ((chunks 4 c).flatMap decodeGroup)[k] =
      (c.getD (4 * (k / 3)) 0 * 64 ^ 3 + c.getD (4 * (k / 3) + 1) 0 * 64 ^ 2 + c.getD (4 * (k / 3) + 2) 0 * 64 +
        c.getD (4 * (k / 3) + 3) 0) / 256 ^ (2 - k % 3) % 256 := by
  have hgroup := getElem?_flatMap_chunks (k := 4) (m := 3) (by decide) (by decide)
    (fun g hg => by rw [length_decodeGroup, hg]; rfl) (fun g _ => by rw [length_decodeGroup]; exact Nat.min_le_right _ _) c k hk
  rw [List.getElem?_eq_getElem hk] at hgroup
  obtain ⟨hlt, helem⟩ := List.getElem?_eq_some_iff.1 hgroup.symm
  rw [← helem, getElem_decodeGroup]
  simp only [groupOfIndices, getD_take_drop, Nat.reduceLT, Nat.add_zero]

/-- The indices of a group's bytes give the bytes back (spec/42_base64.md R104). -/
theorem decodeGroup_blockIndices {blk : List Nat} (hne : blk ≠ []) (hlen : blk.length ≤ 3) (hb : ∀ b ∈ blk, b < 256) :
    decodeGroup (blockIndices blk) = blk := by
  match blk with
  | [a] => ?_
  | [a, b] => ?_
  | [a, b, c] => ?_
  all_goals
    simp [decodeGroup, blockIndices, groupOfBytes, groupOfIndices, bitField] at hb ⊢
    omega

theorem decodeGroups_payloadIndices {p : List Nat} (hp : ∀ b ∈ p, b < 256) :
    (chunks 4 (payloadIndices p)).flatMap decodeGroup = p := by
  induction p using chunks_induction (k := 3) (by decide) with
  | nil => rfl
  | short g hne hlt =>
    have hlen := length_blockIndices g
    rw [payloadIndices_of_short hne hlt, chunks_of_length_le (by decide) (List.ne_nil_of_length_pos (by omega)) (by omega),
      List.flatMap_singleton, decodeGroup_blockIndices hne hlt.le hp]
  | full g p hg ih =>
    obtain ⟨hgb, hpb⟩ := List.forall_mem_append.1 hp
    rw [payloadIndices_append hg, chunks_append (by decide) (by rw [length_blockIndices, hg]; rfl), List.flatMap_cons,
      ih hpb, decodeGroup_blockIndices (List.ne_nil_of_length_pos (by omega)) hg.le hgb]

/-! #### The commands -/

/-- Settles O38: symbol k is one of the four of group k div 4, taken from the group's bits in R101's own order (log 14). -/
theorem b64EncodesPayload : Obligations.B64EncodesPayload := by
  intro s p hin
  refine completesWith_of_fill hin (fun _ => rfl) (fun _ => rfl) rfl rfl ?_
  rw [commandFill, fillB64Enc, Answer.ok.injEq]
  refine List.ext_getElem ?_ fun k hk _ => ?_
  · rw [length_encodeBlocks, List.length_map, List.length_map, List.length_map, List.length_range]
    rfl
  · rw [getElem_encodeBlocks _ _ _ hk]
    simp only [List.getElem_map, List.getElem_range, List.length_map, getD_map_toNat, apply_ite BitVec.toNat, charOf]

/-- Settles O39: the text's indices come back, and byte k is one of the three of group k div 3, in R102's own order (log 14). -/
theorem b64DecodesText : Obligations.B64DecodesText := by
  intro s c pads hok hd hpads hlen hin
  obtain ⟨-, -, hn, hp⟩ := hok
  refine completesWith_of_fill hin (fun _ => rfl) (fun _ => rfl) rfl rfl ?_
  rw [List.map_append, List.map_replicate, textOf_map_toNat, commandFill,
    fillB64Dec_text hn hp (by simpa using hd) hpads hlen, Answer.ok.injEq]
  refine List.ext_getElem (by rw [length_decodeGroups, List.length_map, List.length_map, List.length_range]; omega)
    fun k hk _ => ?_
  rw [getElem_decodeGroups _ hk]
  simp only [List.getElem_map, List.getElem_range, BitVec.toNat_ofNat]

/-- Settles O40: both functions test the length first, and the query looks at nothing but the padding after it. -/
theorem b64DecodeQueryLength : Obligations.B64DecodeQueryLength := by
  intro s text hin
  have helems := elementsOf_inputIs_one hin
  refine ⟨fun hlen m => failsWith_of hin rfl (fun _ => ?_) (fun _ => ?_), fun hlen => ?_⟩
  · rw [helems, commandQuery, queryB64Dec, List.length_map, if_pos hlen]
  · rw [helems, commandFill, fillB64Dec, List.length_map, if_pos hlen]
  · obtain ⟨hrange, helem⟩ := inElems_of_inputIs hin
    have hexec := exec_query (i := .b64Dec .query) rfl hrange helem
    rw [helems, commandQuery, queryB64Dec, List.length_map, if_neg (by simpa using hlen), padCount_map_toNat] at hexec
    exact ⟨_, hexec, rfl, rfl, rfl, rfl, rfl⟩

/-! #### Laws (spec/42_base64.md R103, R104) -/

/-- Settles O47: the decoder finds the indices of the encoding, and each group of them gives its bytes back. -/
theorem roundTripBase64 : Obligations.RoundTripBase64 := by
  intro c p hok hb
  obtain ⟨-, -, hn, hp⟩ := hok
  have hd : ∀ d ∈ payloadIndices p, d < c.alpha64.toList.length := by simpa using payloadIndices_lt (p := p)
  have hpads : (3 - p.length % 3) % 3 ≤ 2 := by omega
  have hlen := length_payloadIndices_add_padding p
  refine ⟨_, fillB64Enc_eq _ _ p, ?_, ?_, padCount_append_replicate (pad_not_mem_text hp hd) hpads, fun v hv hne => ?_⟩
  · rw [fillB64Dec_text hn hp hd hpads (by omega), decodeGroups_payloadIndices hb]
  · rw [List.length_append, List.length_map, List.length_replicate, hlen]
  · have hsymbol := (List.mem_append.1 hv).resolve_right fun h => hne (List.eq_of_mem_replicate h)
    obtain ⟨d, hmem, rfl⟩ := List.mem_map.1 hsymbol
    exact ⟨charOf_mem (hd d hmem), charOf_lt _ d⟩

/-- Settles O48: the text of the indices holds no padding byte. -/
theorem paddingByLength : Obligations.PaddingByLength := by
  intro c p hok
  obtain ⟨-, -, -, hp⟩ := hok
  exact ⟨_, fillB64Enc_eq _ _ p, pad_not_mem_text hp (by simpa using payloadIndices_lt (p := p))⟩

end Sys2Proof.Machine

/-! ### The word-width converter (spec/43_wordwidth.md R110 to R117) -/

namespace Sys2Proof.Machine

/-! #### Sequences by their little-endian value -/

/-- Zeros at the end do not count. -/
theorem ofDigits_take_of_zeros {b k : Nat} {xs : List Nat} (hzero : ∀ i (_ : i < xs.length), k ≤ i → xs[i] = 0) :
    Nat.ofDigits b (xs.take k) = Nat.ofDigits b xs := by
  have hdrop : xs.drop k = List.replicate (xs.length - k) 0 := by
    refine List.ext_getElem (by simp) fun i hi _ => ?_
    rw [List.getElem_drop, List.getElem_replicate]
    exact hzero _ _ (Nat.le_add_right k i)
  conv_rhs => rw [← List.take_append_drop k xs, hdrop, Nat.ofDigits_append_replicate_zero]

theorem pow_le_ofDigits {b k : Nat} {xs : List Nat} (h : xs.getD k 0 ≠ 0) : b ^ k ≤ Nat.ofDigits b xs := by
  induction xs generalizing k with
  | nil => simp at h
  | cons x xs ih =>
    rw [Nat.ofDigits_cons]
    cases k with
    | zero =>
      rw [List.getD_cons_zero] at h
      rw [pow_zero]
      omega
    | succ k =>
      rw [pow_succ']
      exact (Nat.mul_le_mul_left b (ih h)).trans (Nat.le_add_left _ _)

/-- A digit count, but at least `least`, from the value alone. -/
theorem max_length_digits_eq {b least len n : Nat} (hb : 1 < b) (hleast : least ≤ len) (hlt : n < b ^ len)
    (hge : least < len → b ^ (len - 1) ≤ n) : max least (Nat.digits b n).length = len := by
  have hle := (Nat.digits_length_le_iff hb n).2 hlt
  obtain rfl | h := hleast.eq_or_lt
  · omega
  · have := (Nat.lt_digits_length_iff hb n).2 (hge h)
    omega

/-- A number with k digits put below it has k digits more; where it is 0 there are at most those k. -/
theorem max_length_digits_add_mul {b k u : Nat} (hb : 1 < b) (hu : u < b ^ k) (w : Nat) :
    max k (Nat.digits b (u + b ^ k * w)).length = k + (Nat.digits b w).length := by
  have hlow (t : Nat) : (Nat.digits b (u + b ^ k * w)).length ≤ k + t ↔ (Nat.digits b w).length ≤ t := by
    have hpos : 0 < b ^ k := Nat.zero_lt_of_lt hu
    rw [Nat.digits_length_le_iff hb, Nat.digits_length_le_iff hb, pow_add, Nat.mul_comm (b ^ k) (b ^ t),
      ← Nat.div_lt_iff_lt_mul hpos, Nat.add_mul_div_left _ _ hpos, Nat.div_eq_of_lt hu, Nat.zero_add]
  have h1 := hlow (Nat.digits b w).length
  have h2 := hlow ((Nat.digits b (u + b ^ k * w)).length - k)
  omega

theorem length_digitsAppend_eq_max (b l n : Nat) : (Nat.digitsAppend b l n).length = max l (Nat.digits b n).length := by
  rw [Nat.digitsAppend, List.length_append, List.length_replicate]
  omega

theorem ofDigits_digitsAppend (b l n : Nat) : Nat.ofDigits b (Nat.digitsAppend b l n) = n := by
  rw [Nat.digitsAppend, Nat.ofDigits_append_replicate_zero, Nat.ofDigits_digits]

section
variable {b : Nat} (hb : 1 < b) {xs : List Nat} (hlt : ∀ v ∈ xs, v < b)
include hb hlt

theorem eq_digitsAppend {l n : Nat} (hlen : xs.length = max l (Nat.digits b n).length) (hvalue : Nat.ofDigits b xs = n) :
    xs = Nat.digitsAppend b l n :=
  Nat.ofDigits_inj_of_len_eq hb (hlen.trans (length_digitsAppend_eq_max b l n).symm) hlt
    (fun _ => Nat.lt_of_mem_digitsAppend hb l _) (hvalue.trans (ofDigits_digitsAppend b l n).symm)

/-- The digits of a sequence's value, padded to `least`, are the sequence up to its last element that is not zero, but at least
`least` elements. -/
theorem digitsAppend_ofDigits_eq_take {least keep : Nat} (hkeep : keep ≤ xs.length) (hleast : least ≤ keep)
    (hzero : ∀ i (_ : i < xs.length), keep ≤ i → xs[i] = 0) (hlast : least < keep → xs.getD (keep - 1) 0 ≠ 0) :
    Nat.digitsAppend b least (Nat.ofDigits b xs) = xs.take keep := by
  have hvalue := ofDigits_take_of_zeros (b := b) hzero
  have hlen : (xs.take keep).length = keep := List.length_take_of_le hkeep
  have hltTake : ∀ v ∈ xs.take keep, v < b := fun v hv => hlt v (List.mem_of_mem_take hv)
  have hbound := Nat.ofDigits_lt_base_pow_length hb hltTake
  rw [hvalue, hlen] at hbound
  refine (eq_digitsAppend hb hltTake ?_ hvalue).symm
  rw [hlen, max_length_digits_eq hb hleast hbound fun h => pow_le_ofDigits (hlast h)]

/-- Such a trimming that may drop the last element keeps the sequence only where it does not end with a zero. -/
theorem digitsAppend_ofDigits_eq_self_iff {least : Nat} (hleast : least ≤ xs.length - 1) :
    Nat.digitsAppend b least (Nat.ofDigits b xs) = xs ↔ xs = [] ∨ xs.getLast? ≠ some 0 := by
  obtain rfl | ⟨ys, y, rfl⟩ := List.eq_nil_or_concat' xs
  · simpa [Nat.digitsAppend] using hleast
  have hys : (ys ++ [y]).length = ys.length + 1 := List.length_append
  rw [hys, Nat.add_sub_cancel] at hleast
  rw [List.getLast?_concat]
  simp only [List.append_eq_nil_iff, List.cons_ne_nil, and_false, false_or, ne_eq, Option.some.injEq]
  constructor
  · rintro h rfl
    have hlen := congrArg List.length h
    have hdigits := (Nat.digits_length_le_iff hb _).2
      (Nat.ofDigits_lt_base_pow_length hb (fun v hv => hlt v (List.mem_append_left _ hv)))
    rw [length_digitsAppend_eq_max, Nat.ofDigits_append_zero, hys] at hlen
    omega
  · intro hy
    have hlast : (ys ++ [y]).getD ((ys ++ [y]).length - 1) 0 ≠ 0 := by simpa [hys] using hy
    rw [digitsAppend_ofDigits_eq_take hb hlt le_rfl (by omega) (fun i hi hle => absurd hi (by omega)) fun _ => hlast,
      List.take_length]

end

/-! #### Byte strings by their value (spec/20_memory.md R46) -/

theorem leValue_append (p q : List Byte) : leValue (p ++ q) = leValue p + 256 ^ p.length * leValue q := by
  simp only [leValue_eq_ofDigits, List.map_append, Nat.ofDigits_append, List.length_map]

theorem leValue_append_zeros (p : List Byte) (k : Nat) : leValue (p ++ List.replicate k 0#8) = leValue p := by
  rw [leValue_eq_ofDigits, List.map_append, List.map_replicate, BitVec.toNat_zero, Nat.ofDigits_append_replicate_zero,
    leValue_eq_ofDigits]

theorem leValue_take_of_zeros {p : List Byte} {k : Nat} (hzero : ∀ i (_ : i < p.length), k ≤ i → p[i] = 0#8) :
    leValue (p.take k) = leValue p := by
  rw [leValue_eq_ofDigits, leValue_eq_ofDigits, List.map_take]
  refine ofDigits_take_of_zeros fun i hi hk => ?_
  rw [List.getElem_map, hzero i (by simpa using hi) hk, BitVec.toNat_zero]

theorem pow_le_leValue {p : List Byte} {k : Nat} (h : p.getD k 0#8 ≠ 0#8) : 256 ^ k ≤ leValue p := by
  rw [leValue_eq_ofDigits]
  refine pow_le_ofDigits ?_
  rw [getD_map_toNat]
  exact fun h0 => h (BitVec.eq_of_toNat_eq h0)

/-- The bytes below the e-th do not see what is added from there on. -/
theorem byteAt_add_pow_mul {e k : Nat} (hk : k < e) (v y : Nat) : byteAt (v + 256 ^ e * y) k = byteAt v k := by
  have hpow : 256 ^ e = 256 ^ k * (256 * 256 ^ (e - k - 1)) := by
    rw [← pow_succ', ← pow_add]
    congr 1
    omega
  refine BitVec.eq_of_toNat_eq ?_
  rw [byteAt, byteAt, BitVec.toNat_ofNat, BitVec.toNat_ofNat, hpow, Nat.mul_assoc, Nat.add_mul_div_left _ _ (by positivity),
    Nat.mul_assoc, Nat.add_mul_mod_self_left]

/-- Stored elements of e bytes hold the bytes of their value. -/
theorem byteAt_ofDigits {e : Nat} (he : 0 < e) {elems : List Nat} (hlt : ∀ v ∈ elems, v < 256 ^ e) (a : Nat) :
    byteAt (Nat.ofDigits (256 ^ e) elems) a = byteAt (elems.getD (a / e) 0) (a % e) := by
  have hrest : ∃ y, Nat.ofDigits (256 ^ e) (elems.drop (a / e)) = elems.getD (a / e) 0 + 256 ^ e * y := by
    obtain hq | hq := lt_or_ge (a / e) elems.length
    · exact ⟨_, by rw [List.drop_eq_getElem_cons hq, Nat.ofDigits_cons, List.getD_eq_getElem _ _ hq]⟩
    · exact ⟨0, by rw [List.drop_of_length_le hq, List.getD_eq_default _ _ hq]; rfl⟩
  obtain ⟨y, hy⟩ := hrest
  have hdiv : Nat.ofDigits (256 ^ e) elems / 256 ^ a = (elems.getD (a / e) 0 + 256 ^ e * y) / 256 ^ (a % e) := by
    rw [← hy, ← Nat.ofDigits_div_pow_eq_ofDigits_drop _ (by positivity) _ hlt, Nat.div_div_eq_div_mul, ← pow_mul, ← pow_add,
      Nat.div_add_mod]
  rw [byteAt, hdiv, ← byteAt, byteAt_add_pow_mul (Nat.mod_lt a he)]

theorem byteAt_leValue (p : List Byte) (a : Nat) : byteAt (leValue p) a = p.getD a 0#8 := by
  have h := byteAt_ofDigits (e := 1) (by decide) (elems := p.map BitVec.toNat)
    (by simpa using fun b _ => b.isLt) a
  rw [pow_one, ← leValue_eq_ofDigits, Nat.div_one, Nat.mod_one, getD_map_toNat] at h
  rw [h, byteAt, pow_zero, Nat.div_one, BitVec.ofNat_toNat, BitVec.setWidth_eq]

theorem elementsOf_succ (e n : Nat) (p : List Byte) :
    elementsOf e (n + 1) p = leValue (p.take e) :: elementsOf e n (p.drop e) := by
  simp only [elementsOf, List.range_succ_eq_map, List.map_cons, List.map_map, Nat.zero_mul, List.drop_zero, List.drop_drop]
  congr 2
  funext i
  rw [Function.comp_apply, Nat.succ_mul, Nat.add_comm]

/-- The elements of a byte string have its value. -/
theorem ofDigits_elementsOf {e n : Nat} {p : List Byte} (hlen : n * e = p.length) :
    Nat.ofDigits (256 ^ e) (elementsOf e n p) = leValue p := by
  induction n generalizing p with
  | zero =>
    obtain rfl : p = [] := List.eq_nil_of_length_eq_zero (by rw [← hlen, Nat.zero_mul])
    rfl
  | succ n ih =>
    rw [Nat.succ_mul] at hlen
    have htake : (p.take e).length = e := List.length_take_of_le (by omega)
    rw [elementsOf_succ, Nat.ofDigits_cons, ih (by rw [List.length_drop]; omega)]
    conv_rhs => rw [← List.take_append_drop e p, leValue_append, htake]

theorem length_elementsOf (e n : Nat) (p : List Byte) : (elementsOf e n p).length = n := by
  rw [elementsOf, List.length_map, List.length_range]

/-- A command whose output elements have the value of as many bytes writes those bytes. -/
theorem completesWith_of_value {cmd : Mode → Instr} {s : State} {input bytes : List Byte} {elems : List Nat}
    (hin : InputIs s (cmd .fill).eIn input) (hrow : ∀ m, cmd m = (cmd .fill).inMode m) (hm : ∀ m, (cmd m).mode = m)
    (hfill : commandFill s.cfg (cmd .fill) (elementsOf (cmd .fill).eIn s.latInLen.toNat input) = .ok elems)
    (hlen : bytes.length = elems.length * (cmd .fill).eOut)
    (hvalue : Nat.ofDigits (256 ^ (cmd .fill).eOut) elems = leValue bytes) :
    CompletesWith cmd s elems.length bytes := by
  have hlt := commandFill_lt (inElems_lt (inElems_of_inputIs hin).2) hfill
  refine completesWith_of hin hm (fun m => by rw [hrow m, Instr.inMode_eIn]) ?_ hfill rfl hlen fun a ha => ?_
  · rw [hrow .query, commandQuery_inMode, commandQuery_of_fill hfill]
  · rw [← byteAt_ofDigits (eOut_pos _) hlt, hvalue, byteAt_leValue, List.getD_eq_getElem _ _ ha]

/-! #### Lane arrays by their value (spec/43_wordwidth.md R115) -/

theorem laneOf_eq_ofDigits (wn : Nat) (xs : List Nat) : laneOf wn xs = Nat.ofDigits (2 ^ wn) xs := by
  induction xs with
  | nil => rfl
  | cons x xs ih => rw [laneOf, ih, Nat.ofDigits_cons]

theorem ofDigits_range_digits (b n k : Nat) :
    Nat.ofDigits b ((List.range k).map fun j => n / b ^ j % b) = n % b ^ k := by
  induction k with
  | zero => rw [pow_zero, Nat.mod_one]; rfl
  | succ k ih =>
    rw [List.range_succ, List.map_append, Nat.ofDigits_append, ih, List.length_map, List.length_range, List.map_singleton,
      Nat.ofDigits_singleton, ← Nat.mod_pow_succ]

/-- What `keptLength` keeps of a sequence of digits are the digits of its value. -/
theorem take_keptLength {b : Nat} (hb : 1 < b) {xs : List Nat} (hlt : ∀ v ∈ xs, v < b) :
    xs.take (keptLength xs) = Nat.digits b (Nat.ofDigits b xs) := by
  induction xs with
  | nil => simp
  | cons x xs ih =>
    have hx : x < b := hlt x List.mem_cons_self
    have hrest := ih fun v hv => hlt v (List.mem_cons_of_mem x hv)
    rw [keptLength, Nat.ofDigits_cons]
    by_cases hk : keptLength xs = 0
    · rw [hk, List.take_zero, eq_comm, Nat.digits_eq_nil_iff_eq_zero] at hrest
      rw [if_pos hk, hrest, Nat.mul_zero, Nat.add_zero]
      split_ifs with h0
      · rw [h0, Nat.digits_zero, List.take_zero]
      · rw [Nat.digits_of_lt b x h0 hx, List.take_succ_cons, List.take_zero]
    · have hne : Nat.ofDigits b xs ≠ 0 := by
        rintro h0
        have hlen := congrArg List.length hrest
        rw [h0, Nat.digits_zero, List.length_take, List.length_nil] at hlen
        have := keptLength_le xs
        omega
      rw [if_neg hk, List.take_succ_cons, hrest, Nat.digits_add b hb x _ hx (.inr hne)]

theorem length_flatMap_subLanes (wn : Nat) (ws : List Nat) : (ws.flatMap (subLanes wn)).length = 32 / wn * ws.length := by
  simp [List.length_flatMap, Nat.mul_comm]

theorem ceilDiv_le_iff {n k t : Nat} (hk : 0 < k) : ceilDiv n k ≤ t ↔ n ≤ k * t := by
  rw [← ceilDiv_le_iff_le_mul hk, Nat.ceilDiv_eq_add_pred_div, ceilDiv]

section
variable {wn : Nat} (hwn : wn = 8 ∨ wn = 16)
include hwn

theorem ratio_pos : 0 < 32 / wn := by obtain rfl | rfl := hwn <;> decide

theorem one_lt_laneBase : 1 < 2 ^ wn := by obtain rfl | rfl := hwn <;> decide

/-- A wide lane is r narrow ones. -/
theorem laneBase_pow_ratio : (2 ^ wn) ^ (32 / wn) = 2 ^ 32 := by obtain rfl | rfl := hwn <;> decide

theorem laneBase_pow_lanes (n : Nat) : (2 ^ wn) ^ (32 / wn * n) = (2 ^ 32) ^ n := by rw [pow_mul, laneBase_pow_ratio hwn]

theorem ofDigits_packLanes (x : List Nat) : Nat.ofDigits (2 ^ 32) (packLanes wn x) = Nat.ofDigits (2 ^ wn) x := by
  have hr := ratio_pos hwn
  induction x using chunks_induction hr with
  | nil => rfl
  | short g hne hlt =>
    rw [packLanes, chunks_of_length_le hr hne hlt.le, List.map_singleton, Nat.ofDigits_singleton, laneOf_eq_ofDigits]
  | full g x hg ih =>
    rw [packLanes, chunks_append hr hg, List.map_cons, ← packLanes, Nat.ofDigits_cons, ih, laneOf_eq_ofDigits,
      Nat.ofDigits_append, hg, laneBase_pow_ratio hwn]

theorem ofDigits_subLanes {w : Nat} (hw : w < 2 ^ 32) : Nat.ofDigits (2 ^ wn) (subLanes wn w) = w := by
  simp only [subLanes, pow_mul]
  rw [ofDigits_range_digits, laneBase_pow_ratio hwn, Nat.mod_eq_of_lt hw]

theorem ofDigits_flatMap_subLanes {ws : List Nat} (hw : ∀ w ∈ ws, w < 2 ^ 32) :
    Nat.ofDigits (2 ^ wn) (ws.flatMap (subLanes wn)) = Nat.ofDigits (2 ^ 32) ws := by
  induction ws with
  | nil => rfl
  | cons w ws ih =>
    obtain ⟨hhead, htail⟩ := List.forall_mem_cons.1 hw
    rw [List.flatMap_cons, Nat.ofDigits_append, length_subLanes, laneBase_pow_ratio hwn, ofDigits_subLanes hwn hhead, ih htail,
      Nat.ofDigits_cons]

/-- Of the top lane its digits are kept, and of the lower lanes all sub-lanes (spec/43_wordwidth.md R110). -/
theorem unpackLanes_append_singleton (us : List Nat) {w : Nat} (hw : w < 2 ^ 32) :
    unpackLanes wn (us ++ [w]) = us.flatMap (subLanes wn) ++ Nat.digits (2 ^ wn) w := by
  induction us with
  | nil =>
    rw [List.nil_append, unpackLanes, topLanes, take_keptLength (one_lt_laneBase hwn) subLanes_lt, ofDigits_subLanes hwn hw]
    rfl
  | cons u us ih =>
    rw [List.flatMap_cons, List.append_assoc, ← ih]
    cases us <;> rfl

theorem ofDigits_unpackLanes {ws : List Nat} (hw : ∀ w ∈ ws, w < 2 ^ 32) :
    Nat.ofDigits (2 ^ wn) (unpackLanes wn ws) = Nat.ofDigits (2 ^ 32) ws := by
  obtain rfl | ⟨us, w, rfl⟩ := List.eq_nil_or_concat' ws
  · rfl
  · obtain ⟨hus, hw⟩ := List.forall_mem_append.1 hw
    rw [unpackLanes_append_singleton hwn us (hw w (List.mem_singleton_self w)), Nat.ofDigits_append, Nat.ofDigits_append,
      ofDigits_flatMap_subLanes hwn hus, Nat.ofDigits_digits, Nat.ofDigits_singleton, length_flatMap_subLanes,
      laneBase_pow_lanes hwn]

/-- Unpacking answers the digits of the value, and at least the sub-lanes of the lower lanes. -/
theorem unpackLanes_eq_digitsAppend {ws : List Nat} (hw : ∀ w ∈ ws, w < 2 ^ 32) :
    unpackLanes wn ws = Nat.digitsAppend (2 ^ wn) (32 / wn * (ws.length - 1)) (Nat.ofDigits (2 ^ 32) ws) := by
  refine eq_digitsAppend (one_lt_laneBase hwn) (unpackLanes_lt wn ws) ?_ (ofDigits_unpackLanes hwn hw)
  obtain rfl | ⟨us, w, rfl⟩ := List.eq_nil_or_concat' ws
  · simp [unpackLanes]
  · obtain ⟨hus, hw⟩ := List.forall_mem_append.1 hw
    have hlow := Nat.ofDigits_lt_base_pow_length (by decide) hus
    rw [← laneBase_pow_lanes hwn] at hlow
    rw [unpackLanes_append_singleton hwn us (hw w (List.mem_singleton_self w)), List.length_append, length_flatMap_subLanes,
      Nat.ofDigits_append, Nat.ofDigits_singleton, ← laneBase_pow_lanes hwn, List.length_append, List.length_singleton,
      Nat.add_sub_cancel, max_length_digits_add_mul (one_lt_laneBase hwn) hlow]

/-- Unpacking a packing trims, of the narrow lanes, those above the full groups before the last (spec/43_wordwidth.md R116). -/
theorem unpackLanes_packLanes {x : List Nat} (hx : ∀ v ∈ x, v < 2 ^ wn) :
    unpackLanes wn (packLanes wn x) =
      Nat.digitsAppend (2 ^ wn) ((x.length - 1) / (32 / wn) * (32 / wn)) (Nat.ofDigits (2 ^ wn) x) := by
  have hlower : 32 / wn * (ceilDiv x.length (32 / wn) - 1) = (x.length - 1) / (32 / wn) * (32 / wn) := by
    obtain rfl | rfl := hwn <;> simp only [ceilDiv] <;> omega
  rw [unpackLanes_eq_digitsAppend hwn (packLanes_lt hwn hx), length_packLanes hwn, hlower, ofDigits_packLanes hwn]

/-- Packing an unpacking trims no lane but the last (spec/43_wordwidth.md R116). -/
theorem packLanes_unpackLanes {w : List Nat} (hw : ∀ v ∈ w, v < 2 ^ 32) :
    packLanes wn (unpackLanes wn w) = Nat.digitsAppend (2 ^ 32) (w.length - 1) (Nat.ofDigits (2 ^ 32) w) := by
  refine eq_digitsAppend (by decide) (packLanes_lt hwn (unpackLanes_lt wn w)) ?_ ?_
  · refine eq_of_forall_ge_iff fun t => ?_
    rw [length_packLanes hwn, ceilDiv_le_iff (ratio_pos hwn), unpackLanes_eq_digitsAppend hwn hw, length_digitsAppend_eq_max,
      max_le_iff, max_le_iff, Nat.mul_le_mul_left_iff (ratio_pos hwn), Nat.digits_length_le_iff (one_lt_laneBase hwn),
      Nat.digits_length_le_iff (by decide), laneBase_pow_lanes hwn]
  · rw [ofDigits_packLanes hwn, ofDigits_unpackLanes hwn hw]

end

/-- Settles O49: a wide lane has the value of its group of narrow lanes, in both directions. -/
theorem converterKeepsValue : Obligations.ConverterKeepsValue :=
  fun _ x hwn => ⟨ofDigits_packLanes hwn x, ofDigits_unpackLanes hwn⟩

/-- Settles O50: each round trip answers the digits of the same value, padded to all lanes that cannot be trimmed. -/
theorem converterRoundTrips : Obligations.ConverterRoundTrips := by
  intro wn hwn
  have hb := one_lt_laneBase hwn
  refine ⟨fun x hx => ?_, fun w hw => ?_⟩
  · rw [unpackLanes_packLanes hwn hx]
    refine ⟨digitsAppend_ofDigits_eq_self_iff hb hx (Nat.div_mul_le_self _ _), fun keep hkeep hleast hzero hlast => ?_⟩
    exact digitsAppend_ofDigits_eq_take hb hx hkeep hleast hzero hlast
  · rw [packLanes_unpackLanes hwn hw]
    refine ⟨digitsAppend_ofDigits_eq_self_iff (by decide) hw le_rfl, fun hlast => ?_⟩
    rw [List.dropLast_eq_take]
    refine digitsAppend_ofDigits_eq_take (by decide) hw (Nat.sub_le _ _) le_rfl (fun i hi hle => ?_)
      (fun h => absurd h (lt_irrefl _))
    obtain rfl : i = w.length - 1 := by omega
    rw [List.getLast?_eq_getElem?, List.getElem?_eq_getElem hi] at hlast
    exact Option.some.inj hlast

/-! #### The commands -/

theorem laneWidth_of_bytes {e : Nat} (he : e = 1 ∨ e = 2) : 8 * e = 8 ∨ 8 * e = 16 := by omega

theorem two_pow_eight_mul (e : Nat) : 2 ^ (8 * e) = 256 ^ e := pow_mul 2 8 e

/-- Packing e-byte lanes writes the input bytes, then zeros up to a whole lane (spec/43_wordwidth.md R117). -/
theorem completesWith_packLanes {cmd : Mode → Instr} {s : State} {p : List Byte} {e : Nat} (he : e = 1 ∨ e = 2)
    (hin : InputIs s e p) (hrow : ∀ m, cmd m = (cmd .fill).inMode m) (hm : ∀ m, (cmd m).mode = m)
    (heIn : (cmd .fill).eIn = e) (heOut : (cmd .fill).eOut = 4)
    (hfill : ∀ x, commandFill s.cfg (cmd .fill) x = .ok (packLanes (8 * e) x)) :
    let len := ceilDiv s.latInLen.toNat (32 / (8 * e))
    CompletesWith cmd s len (p ++ List.replicate (4 * len - p.length) 0#8) := by
  intro len
  have hwn := laneWidth_of_bytes he
  obtain ⟨hlen, -, -⟩ := id hin
  have hpack : (packLanes (8 * e) (elementsOf e s.latInLen.toNat p)).length = len := by
    rw [length_packLanes hwn, length_elementsOf]
  rw [← hpack]
  refine completesWith_of_value (by rwa [heIn]) hrow hm (by rw [heIn]; exact hfill _) ?_ ?_
  · have hfits : p.length ≤ 4 * len := by
      rw [← hlen]
      obtain rfl | rfl := he <;> simp only [len, ceilDiv] <;> omega
    rw [hpack, heOut, List.length_append, List.length_replicate]
    omega
  · rw [heOut, leValue_append_zeros, ← ofDigits_elementsOf hlen, ← two_pow_eight_mul e]
    exact ofDigits_packLanes hwn _

/-- Unpacking to e-byte lanes writes the input bytes up to the last sub-lane of the top lane that is not zero
(spec/43_wordwidth.md R117). -/
theorem completesWith_unpackLanes {cmd : Mode → Instr} {s : State} {p : List Byte} {e len : Nat} (he : e = 1 ∨ e = 2)
    (hin : InputIs s 4 p) (hrow : ∀ m, cmd m = (cmd .fill).inMode m) (hm : ∀ m, (cmd m).mode = m)
    (heIn : (cmd .fill).eIn = 4) (heOut : (cmd .fill).eOut = e)
    (hfill : ∀ x, commandFill s.cfg (cmd .fill) x = .ok (unpackLanes (8 * e) x))
    (hle : e * len ≤ p.length) (hleast : p.length - 4 ≤ e * len)
    (hzero : ∀ k (_ : k < p.length), e * len ≤ k → p[k] = 0#8)
    (hlast : p.length - 4 < e * len → ∃ k, e * (len - 1) ≤ k ∧ p.getD k 0#8 ≠ 0#8) :
    CompletesWith cmd s len (p.take (e * len)) := by
  have hwn := laneWidth_of_bytes he
  obtain ⟨hlen, -, -⟩ := id hin
  have htake : (p.take (e * len)).length = e * len := List.length_take_of_le hle
  have hlanes : ∀ w ∈ elementsOf 4 s.latInLen.toNat p, w < 2 ^ 32 := inElems_lt (inElems_of_inputIs hin).2
  have hvalue : Nat.ofDigits (2 ^ 32) (elementsOf 4 s.latInLen.toNat p) = leValue p := ofDigits_elementsOf hlen
  have hunpack : (unpackLanes (8 * e) (elementsOf 4 s.latInLen.toNat p)).length = len := by
    rw [unpackLanes_eq_digitsAppend hwn hlanes, length_digitsAppend_eq_max, length_elementsOf, hvalue]
    refine max_length_digits_eq (one_lt_laneBase hwn) ?_ ?_ fun h => ?_
    · obtain rfl | rfl := he <;> omega
    · have hlt := leValue_lt (p.take (e * len))
      rwa [leValue_take_of_zeros hzero, htake, pow_mul, ← two_pow_eight_mul] at hlt
    · have habove : p.length - 4 < e * len := by obtain rfl | rfl := he <;> omega
      obtain ⟨k, hk, hne⟩ := hlast habove
      rw [two_pow_eight_mul, ← pow_mul]
      exact (Nat.pow_le_pow_right (by decide) hk).trans (pow_le_leValue hne)
  rw [← hunpack]
  refine completesWith_of_value (by rwa [heIn]) hrow hm (by rw [heIn]; exact hfill _) ?_ ?_
  · rw [hunpack, heOut, htake, Nat.mul_comm]
  · rw [hunpack, heOut, leValue_take_of_zeros hzero, ← hvalue, ← two_pow_eight_mul e]
    exact ofDigits_unpackLanes hwn hlanes

/-- Settles O41: the packed lanes have the value of the input bytes, and zeros at the end do not change it. -/
theorem pack8WritesLanes : Obligations.Pack8WritesLanes := by
  intro s p hin
  obtain ⟨hlen, -⟩ := id hin
  rw [Nat.mul_one] at hlen
  have h := completesWith_packLanes (cmd := .pack8To32) (.inl rfl) hin (fun _ => rfl) (fun _ => rfl) rfl rfl (fun _ => rfl)
  rwa [hlen] at h

/-- Settles O42: the same with input elements of two bytes. -/
theorem pack16WritesLanes : Obligations.Pack16WritesLanes := by
  intro s p hin
  exact completesWith_packLanes (.inr rfl) hin (fun _ => rfl) (fun _ => rfl) rfl rfl (fun _ => rfl)

/-- Settles O43: the unpacked lanes have the value of the input bytes, and their number is `len`, as the zeros at the end begin
there. -/
theorem unpack8TrimsTopLane : Obligations.Unpack8TrimsTopLane := by
  intro s p len hin hle hleast hzero hlast
  have h := completesWith_unpackLanes (cmd := .unpack32To8) (len := len) (.inl rfl) hin (fun _ => rfl) (fun _ => rfl) rfl rfl
    (fun _ => rfl)
  simp only [Nat.one_mul] at h
  exact h hle hleast hzero fun hlt => ⟨_, le_rfl, hlast hlt⟩

/-- Settles O44: the same by 16-bit sub-lanes, of which the last one kept has a byte that is not zero. -/
theorem unpack16TrimsTopLane : Obligations.Unpack16TrimsTopLane := by
  intro s p len hin hle hleast hzero hlast
  refine completesWith_unpackLanes (.inr rfl) hin (fun _ => rfl) (fun _ => rfl) rfl rfl (fun _ => rfl) hle hleast hzero
    fun h => ?_
  obtain hhigh | hlow := hlast h
  · exact ⟨_, by omega, hhigh⟩
  · exact ⟨_, by omega, hlow⟩

end Sys2Proof.Machine

/-! ### UNINIT_READ (spec/10_state.md R32, spec/60_exceptions.md R159) -/

namespace Sys2Proof.Machine

theorem readBuffer_of_unwritten {m : Memory} {w : Width} {o : Nat} (h : ∃ k < w.bytes, m.read? (o + k) = none) :
    readBuffer m w o = .error .uninitRead := by
  rw [readBuffer, memRead_eq_none.2 h]

/-- A command stops exactly where its input is in range and cannot be read. -/
theorem exec_fault_iff {i : Instr} {s : State} {f : Fault} :
    exec i s = .fault f ↔ f = .uninitRead ∧ s.latInLen.toNat * i.eIn ≤ s.cfg.inSize ∧
      inElems s.inBuf i.eIn s.latInLen.toNat = none := by
  constructor
  · intro h
    obtain ⟨-, he⟩ | ⟨hr, ⟨hx, he⟩ | ⟨x, -, ⟨-, he⟩ | ⟨-, he⟩⟩⟩ := exec_forms i s <;> rw [he] at h <;> cases h
    exact ⟨rfl, hr, hx⟩
  · rintro ⟨rfl, hr, hx⟩
    exact exec_unwritten hr hx

theorem exec_ne_refused (i : Instr) (s : State) (r : Refusal) : exec i s ≠ .refused r := by
  obtain ⟨-, he⟩ | ⟨-, ⟨-, he⟩ | ⟨x, -, ⟨-, he⟩ | ⟨-, he⟩⟩⟩ := exec_forms i s <;> rw [he] <;> exact nofun

/-- Settles O23: a wide read and InElems answer none exactly where one of their bytes is unwritten. -/
theorem unwrittenBytesFault : Obligations.UnwrittenBytesFault := by
  refine ⟨fun s w o ho ha => ⟨fun hs hnone => ?_, fun hs hb hnone => ?_⟩, fun i s f => ?_, exec_ne_refused⟩
  · rw [busRead_inWindow ho (bufferAccess_iff.2 ⟨ha, hs⟩), readBuffer_of_unwritten hnone]
  · rw [busRead_outWindow_idle ho hb (bufferAccess_iff.2 ⟨ha, hs⟩), readBuffer_of_unwritten hnone]
  · rw [exec_fault_iff, inElems_eq_none]

end Sys2Proof.Machine

/-! ### The codes a command ends with (spec/60_exceptions.md R151, R152) -/

namespace Sys2Proof.Machine

/-- The table of spec/60_exceptions.md R151, with the RESULT that R152 gives INVALID_LENGTH: a code and a RESULT that the
command can end with in state `s`, and why. -/
inductive MayEndWith (i : Instr) (s : State) : StatusCode → Word → Prop where
  | ok (result : Word) : MayEndWith i s .ok result
  | invalidSymbol (result : Word) (h : (∃ m, i = .p58Dec m) ∨ (∃ m, i = .p6Dec m) ∨ i = .b64Dec .fill) :
      MayEndWith i s .invalidSymbol result
  | outputTooSmall (result : Word) (h : i.mode = .fill) : MayEndWith i s .outputTooSmall result
  | invalidLength (h : s.cfg.inSize < s.latInLen.toNat * i.eIn ∨ (∃ m, i = .b64Dec m) ∧ s.latInLen.toNat % 4 ≠ 0) :
      MayEndWith i s .invalidLength s.latInLen

section
variable {i : Instr} {s : State} {x : List Nat} {code : StatusCode} {info : Nat}

/-- The validation loop's only error, in the commands that run it (spec/41_positional.md R90, spec/42_base64.md R102). -/
theorem digitValues_err_mayEndWith {alphabet : List Byte} {j : Nat}
    (hdec : (∃ m, i = .p58Dec m) ∨ (∃ m, i = .p6Dec m) ∨ i = .b64Dec .fill)
    (h : digitValues alphabet j x = .err code info) : MayEndWith i s code (BitVec.ofNat 32 info) := by
  obtain ⟨rfl, -, -⟩ := digitValues_err_code h
  exact .invalidSymbol _ hdec

/-- The length check of B64.DEC, the same in both modes (spec/42_base64.md R102). -/
theorem b64Dec_mayEndWith_invalidLength {m : Mode} (hx : x.length = s.latInLen.toNat) (hlen : x.length % 4 ≠ 0) :
    MayEndWith (.b64Dec m) s .invalidLength (BitVec.ofNat 32 x.length) := by
  rw [hx, BitVec.ofNat_toNat, BitVec.setWidth_eq]
  exact .invalidLength (.inr ⟨⟨m, rfl⟩, hx ▸ hlen⟩)

theorem commandQuery_err_mayEndWith (hx : x.length = s.latInLen.toNat) (h : commandQuery s.cfg i x = .err code info) :
    MayEndWith i s code (BitVec.ofNat 32 info) := by
  cases i with
  | p58Dec m => exact digitValues_err_mayEndWith (.inl ⟨m, rfl⟩) (map_err h)
  | p6Dec m => exact digitValues_err_mayEndWith (.inr (.inl ⟨m, rfl⟩)) (map_err h)
  | b64Dec m =>
    simp only [commandQuery, queryB64Dec] at h
    split at h
    next hlen => cases h; exact b64Dec_mayEndWith_invalidLength hx hlen
    next => cases h
  | _ => cases h

theorem commandFill_err_mayEndWith (hm : i.mode = .fill) (hx : x.length = s.latInLen.toNat)
    (h : commandFill s.cfg i x = .err code info) : MayEndWith i s code (BitVec.ofNat 32 info) := by
  cases i with
  | p58Dec m => exact digitValues_err_mayEndWith (.inl ⟨m, rfl⟩) (map_err h)
  | p6Dec m => exact digitValues_err_mayEndWith (.inr (.inl ⟨m, rfl⟩)) (map_err h)
  | b64Dec m =>
    simp only [commandFill, fillB64Dec] at h
    split at h
    next hlen => cases h; exact b64Dec_mayEndWith_invalidLength hx hlen
    next =>
      obtain rfl : m = .fill := hm
      exact digitValues_err_mayEndWith (.inr (.inr rfl)) (map_err h)
  | _ => cases h

theorem exec_mayEndWith {t : State} (h : exec i s = .next t) : MayEndWith i s t.code t.result := by
  obtain ⟨hr, he⟩ | ⟨-, ⟨-, he⟩ | ⟨x, hx, ⟨-, he⟩ | ⟨hm, he⟩⟩⟩ := exec_forms i s <;> rw [he] at h <;> cases h <;>
    rw [settle_code, settle_result]
  · rw [finish_code, finish_result, BitVec.ofNat_toNat, BitVec.setWidth_eq]
    exact .invalidLength (.inl hr)
  · cases hq : commandQuery s.cfg i x with
    | ok len => exact .ok _
    | err code info => exact commandQuery_err_mayEndWith (length_inElems hx) hq
  · cases hf : commandFill s.cfg i x with
    | ok elems =>
      rw [completeFill_ok_code]
      split
      · exact .outputTooSmall _ hm
      · exact .ok _
    | err code info => exact commandFill_err_mayEndWith hm (length_inElems hx) hf

end

/-- Settles O28: each clause is one row of the table. -/
theorem codesOfEachCommand : Obligations.CodesOfEachCommand := by
  intro i s t h
  have hend := exec_mayEndWith h
  generalize t.code = code, t.result = result at hend
  cases hend with
  | ok => exact ⟨by simp, nofun, nofun, nofun⟩
  | invalidSymbol _ hdec => exact ⟨by simp, fun _ => hdec, nofun, nofun⟩
  | outputTooSmall _ hfill => exact ⟨by simp, nofun, fun _ => hfill, nofun⟩
  | invalidLength hlen => exact ⟨by simp, nofun, nofun, fun _ => ⟨rfl, hlen⟩⟩

end Sys2Proof.Machine

/-! ### Reset, and what ends a wait or a run (spec/70_reset_and_hazards.md R170, R171, R180, R181) -/

namespace Sys2Proof.Machine

/-! #### A wait (R181) -/

/-- While a command runs, a bus write reaches only IE, DONE and OVR (spec/10_state.md R29). -/
theorem busWrite_busy_frame {w : Width} {off : Nat} {v : Word} {s t : State} (hb : s.busy = true)
    (h : busWrite w off v s = .next t) : t = { s with ie := t.ie, done := t.done, ovr := t.ovr } := by
  obtain rfl | ⟨-, rfl⟩ | ⟨_, rfl, -⟩ | ⟨_, rfl, -⟩ | ⟨hidle, -⟩ | ⟨hidle, -⟩ | ⟨hidle, -⟩ |
    ⟨_, hidle, -⟩ | ⟨_, hidle, -⟩ := busWrite_cases h
  · rfl
  · rfl
  · rfl
  · rfl
  all_goals simp [hb] at hidle -- CMD, IN_LEN, OUT_CAP and the buffers need BUSY = 0

/-- While a command runs, a host line reaches only IE, DONE, OVR, the host's own fields and the free-value counter. -/
theorem runLine_busy_frame {l : HostLine} {s t : State} (hb : s.busy = true) (h : runLine l s = .next t) :
    t = { s with ie := t.ie, done := t.done, ovr := t.ovr, pos := t.pos, temp := t.temp, draws := t.draws } := by
  obtain ⟨w, off, d, u, -, hu, rfl⟩ | ⟨w, off, v, -, -, rfl⟩ | ⟨p, rfl⟩ := runLine_cases h
  · rw [busWrite_busy_frame hb hu]; rfl
  · rw [afterRead_frame]; rfl
  · rfl

theorem hostStep_busy_frame {s t : State} (hb : s.busy = true) (h : hostStep s = .next t) :
    t = { s with
      ie := t.ie, done := t.done, ovr := t.ovr, pos := t.pos, temp := t.temp, wait := t.wait, draws := t.draws } := by
  obtain ⟨-, rfl⟩ | ⟨l, -, hl⟩ := hostStep_cases h
  · rfl
  · rw [runLine_busy_frame ((tick_busy s).trans hb) hl, tick_frame]

/-- Settles O57: a step with BUSY = 1 and no reset is COMPLETE or the host's, which leaves the running command alone. -/
theorem onlyCompleteEndsWait : Obligations.OnlyCompleteEndsWait := by
  intro s t hb h hr
  obtain ⟨hreset, -⟩ | ⟨-, -, hcomplete⟩ | ⟨-, -, hh⟩ := step_cases h
  · simp [hr] at hreset
  · exact .inl hcomplete
  · right
    rw [hostStep_busy_frame hb hh]
    exact ⟨hb, rfl, rfl, rfl, rfl, rfl, rfl, rfl, rfl, rfl, rfl⟩

/-! #### Reset (R170, R171) -/

/-- Settles O1: each read is its register's, at the default parameters. -/
theorem resetStateIsIdle : Obligations.ResetStateIsIdle := by
  refine ⟨rfl, rfl, rfl, rfl, rfl, rfl, fun a => ⟨read_nil a, read_nil a⟩, busRead_register (by decide) rfl _, ?_,
    busRead_register (by decide) rfl _, busRead_register (by decide) rfl _⟩
  decide

theorem defaultConfig_wf : defaultConfig.Wf := by decide

/-- Settles O2: the buffers are empty and BUSY is 0, so that only the default parameters are left to check. -/
theorem resetMeetsInv : Obligations.ResetMeetsInv :=
  { cfgWf := defaultConfig_wf
    inBufWf := rfl
    outBufWf := rfl
    accFits := Nat.two_pow_pos _
    codeProduced := List.mem_cons_self
    illegalResult := nofun
    busyLegal := nofun
    busyLatch := nofun
    busyClear := nofun }

theorem step_reset {s : State} (hr : s.resetIn = true) : step s = .next (blockReset s) := if_pos hr

/-- Settles O3: the step is `blockReset`, and each clause is one field of it. -/
theorem resetInputRestoresBlock : Obligations.ResetInputRestoresBlock := by
  intro s hr
  exact ⟨_, step_reset hr, rfl, rfl, rfl, rfl, rfl, rfl, rfl, rfl, rfl, fun a => ⟨read_nil a, read_nil a⟩,
    irq_of_not_done rfl, rfl, rfl, rfl, rfl, rfl⟩

/-! #### The end of a run (R180) -/

theorem runEnded_iff {s : State} : runEnded s = true ↔ s.script[s.pos]? = some .halt ∧ s.busy = false := by
  simp [runEnded]

theorem engineTurn_idle {s : State} (hb : s.busy = false) : engineTurn s = false := by
  rw [engineTurn, hb, Bool.false_and]

/-- At HALT with BUSY = 0 it is the host's turn, and its line changes nothing. -/
theorem step_runEnded {s : State} (hr : s.resetIn = false) (h : runEnded s = true) : step s = .next s := by
  obtain ⟨hhalt, hb⟩ := runEnded_iff.1 h
  rw [step_hostLine ⟨hr, engineTurn_idle hb, hhalt⟩, tick_idle hb, runLine]

theorem endState_busy {s : State} (hb : s.busy = true) : endState s = none :=
  if_neg (by simp [runEnded_iff, hb])

/-- Settles O11: the end state is made of the words the registers read, and HALT changes nothing. -/
theorem endedRunStays : Obligations.EndedRunStays := by
  refine ⟨fun s hr h => ⟨step_runEnded hr h, _, if_pos h, ?_⟩, fun s => ⟨runEnded_iff, endState_busy⟩⟩
  exact ⟨busRead_register (by decide) rfl s, busRead_register (by decide) rfl s, busRead_cmd s,
    busRead_register (by decide) rfl s, busRead_register (by decide) rfl s, busRead_register (by decide) rfl s,
    rfl, rfl, rfl, rfl⟩

end Sys2Proof.Machine
